-- ==== Sys2Proof/Word.lean ====
section
/-!
DEFINITION. The data types of the core: Byte, Word, the 4 by 4 grid the document calls State, and Block
(spec/10_state.md rules R10 to R12, spec/00_scope.md section 6.2). Only the types and their plainest
operations stand here; every byte order, packing and transformation is in Sys2Proof/Machine/.
-/

namespace Sys2Proof

/-- A Byte: "an 8-bit unsigned value", an element of GF(2^8) (rule R10). -/
abbrev Byte := BitVec 8

/-- A Word: "an ordered sequence of exactly 4 bytes", written `[a0, a1, a2, a3]` (rule R11). -/
structure Word where
  a0 : Byte
  a1 : Byte
  a2 : Byte
  a3 : Byte
deriving DecidableEq, Repr

/-- The word of four zero bytes. -/
def Word.zero : Word := ⟨0, 0, 0, 0⟩

/-- Byte `k` of a word, `w[k]`. -/
def Word.get (w : Word) : Fin 4 → Byte
  | 0 => w.a0
  | 1 => w.a1
  | 2 => w.a2
  | 3 => w.a3

/-- The word whose byte `k` is `f k`. -/
def Word.ofFn (f : Fin 4 → Byte) : Word := ⟨f 0, f 1, f 2, f 3⟩

/-- "XOR of two words is byte by byte" (spec/00_scope.md section 6.2). -/
def Word.xor (w v : Word) : Word := ⟨w.a0 ^^^ v.a0, w.a1 ^^^ v.a1, w.a2 ^^^ v.a2, w.a3 ^^^ v.a3⟩

/-- The document's State, "a 4×4 grid of bytes, addressed as `state[column][row]`": four columns, each a
Word (rule R12). It is called Grid here because State is the name of the machine's state. -/
structure Grid where
  c0 : Word
  c1 : Word
  c2 : Word
  c3 : Word
deriving DecidableEq, Repr

/-- The grid of sixteen zero bytes. -/
def Grid.zero : Grid := ⟨Word.zero, Word.zero, Word.zero, Word.zero⟩

/-- Column `c` of the grid, `s[c]`. -/
def Grid.col (s : Grid) : Fin 4 → Word
  | 0 => s.c0
  | 1 => s.c1
  | 2 => s.c2
  | 3 => s.c3

/-- The byte `s[c][r]`, column first. -/
def Grid.get (s : Grid) (c r : Fin 4) : Byte := (s.col c).get r

/-- The grid whose byte `s[c][r]` is `f c r`. -/
def Grid.ofFn (f : Fin 4 → Fin 4 → Byte) : Grid :=
  ⟨Word.ofFn (f 0), Word.ofFn (f 1), Word.ofFn (f 2), Word.ofFn (f 3)⟩

/-- A Block: "a sequence of 16 bytes `b[0] .. b[15]`" (spec/00_scope.md section 6.2). -/
abbrev Block := Fin 16 → Byte

/-- The four words of a round key (rule R16). -/
abbrev RoundKey := Fin 4 → Word

end Sys2Proof
end

