-- ==== Sys2Proof/Machine/Galois.lean ====
section
/-!
DEFINITION. The module `gf_mult_8bit` (spec/40_gf_mult_8bit.md): `xtime` (rule R81) and `mulPoly` (rule R82),
and the polynomial reading of the same function (rule R84).
-/

namespace Sys2Proof.Machine

/-- `xtime(a)`, multiplication by 0x02: the shift is taken into 9 bits, so that the XOR with the 9-bit
0x11b clears the bit shifted out (rule R81). -/
def xtime (a : Byte) : Byte :=
  let t : BitVec 9 := a.setWidth 9 <<< 1
  (if t.getLsbD 8 then t ^^^ 0x11b#9 else t).setWidth 8

/-- One turn of the loop of rule R82: add `a` when bit `i` of `b` is 1, then double `a`. -/
def mulPolyTurn (b : Byte) (p : Byte × Byte) (i : Nat) : Byte × Byte :=
  (if b.getLsbD i then p.1 ^^^ p.2 else p.1, xtime p.2)

/-- `mulPoly(a, b)`, the product in GF(2^8): the module's port `p` from its ports `a` and `b` (rule R82).
The pair is the accumulator and the running `a`. -/
def mulPoly (a b : Byte) : Byte := ((List.range 8).foldl (mulPolyTurn b) (0x00#8, a)).1

/-- The product of two bytes read as polynomials with coefficients added modulo 2 (rule R84), of degree
at most 14. -/
def polyProduct (a b : Byte) : BitVec 15 :=
  (List.range 8).foldl
    (fun acc i => if b.getLsbD i then acc ^^^ (a.setWidth 15 <<< i) else acc) 0#15

/-- The remainder on division by `x^8 + x^4 + x^3 + x + 1` (rule R84): long division clears the
coefficients of degree 14 down to 8. -/
def polyRemainder (p : BitVec 15) : Byte :=
  ((List.range 7).foldl
    (fun acc k => if acc.getLsbD (14 - k) then acc ^^^ (0x11b#15 <<< (6 - k)) else acc) p).setWidth 8

end Sys2Proof.Machine
end

