-- ==== Sys2Proof/Machine/Tables.lean ====
section
/-!
DEFINITION. The constant tables (spec/41_constant_tables.md): `SBOX` (rule R90), `INVSBOX` (rule R91), `RCON` (rule
R92), and the construction of the S-box (rule R94). They are definitions, not state (rule R93). The S-box
values are those the spec gives, which it supplies from general knowledge (log entry 10).
-/

namespace Sys2Proof.Machine

/-- The rows of the table of rule R90, `0x` to `fx`, each its sixteen columns `x0` to `xf` from left to right. -/
def sboxRows : List (BitVec 128) :=
  [0x637c777bf26b6fc53001672bfed7ab76#128,
   0xca82c97dfa5947f0add4a2af9ca472c0#128,
   0xb7fd9326363ff7cc34a5e5f171d83115#128,
   0x04c723c31896059a071280e2eb27b275#128,
   0x09832c1a1b6e5aa0523bd6b329e32f84#128,
   0x53d100ed20fcb15b6acbbe394a4c58cf#128,
   0xd0efaafb434d338545f9027f503c9fa8#128,
   0x51a3408f929d38f5bcb6da2110fff3d2#128,
   0xcd0c13ec5f974417c4a77e3d645d1973#128,
   0x60814fdc222a908846eeb814de5e0bdb#128,
   0xe0323a0a4906245cc2d3ac629195e479#128,
   0xe7c8376d8dd54ea96c56f4ea657aae08#128,
   0xba78252e1ca6b4c6e8dd741f4bbd8b8a#128,
   0x703eb5664803f60e613557b986c11d9e#128,
   0xe1f8981169d98e949b1e87e9ce5528df#128,
   0x8ca1890dbfe6426841992d0fb054bb16#128]

/-- The rows of the table of rule R91, `0y` to `fy`, laid out as in rule R90. -/
def invSboxRows : List (BitVec 128) :=
  [0x52096ad53036a538bf40a39e81f3d7fb#128,
   0x7ce339829b2fff87348e4344c4dee9cb#128,
   0x547b9432a6c2233dee4c950b42fac34e#128,
   0x082ea16628d924b2765ba2496d8bd125#128,
   0x72f8f66486689816d4a45ccc5d65b692#128,
   0x6c704850fdedb9da5e154657a78d9d84#128,
   0x90d8ab008cbcd30af7e45805b8b34506#128,
   0xd02c1e8fca3f0f02c1afbd0301138a6b#128,
   0x3a9111414f67dcea97f2cfcef0b4e673#128,
   0x96ac7422e7ad3585e2f937e81c75df6e#128,
   0x47f11a711d29c5896fb7620eaa18be1b#128,
   0xfc563e4bc6d279209adbc0fe78cd5af4#128,
   0x1fdda8338807c731b11210592780ec5f#128,
   0x60517fa919b54a0d2de57a9f93c99cef#128,
   0xa0e03b4dae2af5b0c8ebbb3c83539961#128,
   0x172b047eba77d626e169146355210c7d#128]

/-- The entry in the row named by `x[7:4]` and the column named by `x[3:0]` (rules R90, R91). -/
def tableEntry (rows : List (BitVec 128)) (x : Byte) : Byte :=
  (rows.getD (x.toNat / 16) 0).extractLsb' (120 - 8 * (x.toNat % 16)) 8

/-- `SBOX[x]` (rule R90). -/
def sbox (x : Byte) : Byte := tableEntry sboxRows x

/-- `INVSBOX[y]` (rule R91). -/
def invSbox (y : Byte) : Byte := tableEntry invSboxRows y

/-- The affine step of the construction: from the inverse `b` of an index to its S-box entry (rule R94). -/
def sboxAffine (b : Byte) : Byte :=
  b ^^^ b.rotateLeft 1 ^^^ b.rotateLeft 2 ^^^ b.rotateLeft 3 ^^^ b.rotateLeft 4 ^^^ 0x63#8

/-- `rc(k)`: `rc(0) = 0x00` (entry 0 is zero), `rc(1) = 0x01`, `rc(k) = xtime(rc(k−1))` (rule R92). -/
def rc : Nat → Byte
  | 0 => 0x00#8
  | 1 => 0x01#8
  | k + 2 => xtime (rc (k + 1))

/-- `RCON[k] = [rc(k), 0x00, 0x00, 0x00]` for the indices 0 to 10 (rule R92). An index above 10 lies outside the
table; the machine stops before it would read one (log entry 5). -/
def rcon (k : Nat) : Word := ⟨rc k, 0x00#8, 0x00#8, 0x00#8⟩

end Sys2Proof.Machine
end

