-- ==== Sys2Proof/Machine/Round.lean ====
section
/-!
DEFINITION. The round transformations, their inverses and the four round composites (spec/42_cipher_round.md).
Each is a function from the old grid to the new one, so no order of evaluation inside it matters; indices
are `[column][row]`.
-/

namespace Sys2Proof.Machine

/-- `SubBytes` (rule R100). -/
def subBytes (s : Grid) : Grid := Grid.ofFn fun c r => sbox (s.get c r)

/-- `InvSubBytes` (rule R101). -/
def invSubBytes (s : Grid) : Grid := Grid.ofFn fun c r => invSbox (s.get c r)

/-- `ShiftRows`: `s'[c][r] = s[(c + r) mod 4][r]`; addition on `Fin 4` is modulo 4 (rule R102). -/
def shiftRows (s : Grid) : Grid := Grid.ofFn fun c r => s.get (c + r) r

/-- `InvShiftRows`: `s'[c][r] = s[(c − r) mod 4][r]` (rule R103). -/
def invShiftRows (s : Grid) : Grid := Grid.ofFn fun c r => s.get (c - r) r

/-- Row `r` of the forward matrix, row-major (rule R104). -/
def mixRow : Fin 4 → Word
  | 0 => ⟨0x02, 0x03, 0x01, 0x01⟩
  | 1 => ⟨0x01, 0x02, 0x03, 0x01⟩
  | 2 => ⟨0x01, 0x01, 0x02, 0x03⟩
  | 3 => ⟨0x03, 0x01, 0x01, 0x02⟩

/-- Row `r` of the inverse matrix, row-major (rule R105). -/
def invMixRow : Fin 4 → Word
  | 0 => ⟨0x0e, 0x0b, 0x0d, 0x09⟩
  | 1 => ⟨0x09, 0x0e, 0x0b, 0x0d⟩
  | 2 => ⟨0x0d, 0x09, 0x0e, 0x0b⟩
  | 3 => ⟨0x0b, 0x0d, 0x09, 0x0e⟩

/-- A matrix row times a column: the XOR of four products of `mulPoly` (rules R104, R105). -/
def rowTimes (row col : Word) : Byte :=
  mulPoly row.a0 col.a0 ^^^ mulPoly row.a1 col.a1 ^^^ mulPoly row.a2 col.a2 ^^^ mulPoly row.a3 col.a3

/-- `MixColumns` (rule R104). -/
def mixColumns (s : Grid) : Grid := Grid.ofFn fun c r => rowTimes (mixRow r) (s.col c)

/-- `InvMixColumns` (rule R105). -/
def invMixColumns (s : Grid) : Grid := Grid.ofFn fun c r => rowTimes (invMixRow r) (s.col c)

/-- `AddRoundKey`: word `c` of the round key goes with column `c`, byte `k` of the word with row `k`
(rule R106). -/
def addRoundKey (s : Grid) (rk : RoundKey) : Grid := Grid.ofFn fun c r => s.get c r ^^^ (rk c).get r

/-- `Round`, one full forward round (rule R107). -/
def cipherRound (s : Grid) (rk : RoundKey) : Grid := addRoundKey (mixColumns (shiftRows (subBytes s))) rk

/-- `FinalRound`, the last forward round: no MixColumns (rule R108). -/
def finalRound (s : Grid) (rk : RoundKey) : Grid := addRoundKey (shiftRows (subBytes s)) rk

/-- `InvRound`, one full inverse round: AddRoundKey before InvMixColumns (rule R109). -/
def invRound (s : Grid) (rk : RoundKey) : Grid :=
  invMixColumns (addRoundKey (invSubBytes (invShiftRows s)) rk)

/-- `InvFinalRound`, the last inverse step: no InvMixColumns (rule R110). -/
def invFinalRound (s : Grid) (rk : RoundKey) : Grid := addRoundKey (invSubBytes (invShiftRows s)) rk

end Sys2Proof.Machine
end

