-- ==== Sys2Proof/Config.lean ====
section
/-!
DEFINITION. The parameters of spec/00_scope.md: the fixed ones (rules R3, R4) and the ones left open
(rule R5), which are an argument, `Latency`, of the atomic view in Sys2Proof/Machine/Atomic.lean. The spec
leaves no VALUE open, so the configuration has no free value.
-/

namespace Sys2Proof.Config

/-- `Nb`, the number of columns of the grid, fixed at 4 (rule R3). -/
def nb : Nat := 4

/-- `KS_DEPTH`, the number of words of the key-schedule memory (rule R4). -/
def ksDepth : Nat := 60

/-- The number of entries of the round-constant table (rule R92). -/
def rconDepth : Nat := 11

/-- The largest number of bytes the command data bus carries (rules R4, R40). -/
def busBytes : Nat := 32

/-- The open latency parameters of rule R5: clock edges from the accept edge of a successful command to
the edge after which `rsp_valid = 1`, by `Nk` for `KEXP` and by `Nr` for `ENC` and `DEC`. -/
structure Latency where
  kexp : Nat → Nat
  enc : Nat → Nat
  dec : Nat → Nat

/-- Rule R5's constraint: each latency is finite (it is a number) and at least 1. -/
def Latency.admissible (l : Latency) : Prop :=
  (∀ nk ∈ [4, 6, 8], 1 ≤ l.kexp nk) ∧ (∀ nr ∈ [10, 12, 14], 1 ≤ l.enc nr ∧ 1 ≤ l.dec nr)

/-- The latencies of the reference sequencer (rule R5's last column, rule R190): `NW − Nk + 1` with
`NW = 4·(Nk + 7)`, and `Nr + 1`. -/
def Latency.reference : Latency where
  kexp nk := 4 * (nk + 7) - nk + 1
  enc nr := nr + 1
  dec nr := nr + 1

end Sys2Proof.Config
end

