-- ==== Sys2Proof/Syntax.lean ====
section
/-!
DEFINITION. The command set as syntax: the one inductive `Instr` with a constructor for each row of
spec/opcode_table.json (spec/30_encoding.md rules R61, R62), and the textual notation's abstract syntax: command
lines, pseudo-commands and host actions (rules R66, R67).
-/

namespace Sys2Proof

/-- One command of format `CMD` (rule R61): the opcode selects the constructor, `len` is the 6-bit byte
count and `data` the 256-bit data field. Every field value is a command; which are answered with an error is
rule R65. -/
inductive Instr where
  /-- Opcode 00, reserved; always raises `IllegalCommand` (rule R65). -/
  | rsvd (len : BitVec 6) (data : BitVec 256)
  /-- Opcode 01, expand a key of `len` bytes (rule R128). -/
  | kexp (len : BitVec 6) (data : BitVec 256)
  /-- Opcode 10, encrypt one block (rule R142). -/
  | enc (len : BitVec 6) (data : BitVec 256)
  /-- Opcode 11, decrypt one block (rule R152). -/
  | dec (len : BitVec 6) (data : BitVec 256)
deriving DecidableEq, Repr

/-- The four mnemonics of rule R62. -/
inductive Mnemonic where
  | rsvd
  | kexp
  | enc
  | dec
deriving DecidableEq, Repr

/-- A command as it is written, `MNEMONIC len, hexbytes` (rule R66): the notation does not require `len`
to equal the number of bytes written. -/
structure CommandLine where
  mnemonic : Mnemonic
  len : Nat
  bytes : List Byte
deriving DecidableEq, Repr

/-- The pseudo-commands of rule R67, each with the bytes written after it. -/
inductive PseudoCommand where
  | kexp128 (key : List Byte)
  | kexp192 (key : List Byte)
  | kexp256 (key : List Byte)
  | encb (block : List Byte)
  | decb (block : List Byte)
deriving DecidableEq, Repr

/-- One line of a program text (rule R66): a command, a pseudo-command, or a host action, which is no
command and has no encoding. -/
inductive HostAction where
  /-- Present the command until an accept edge, then wait for its response. -/
  | command (c : CommandLine)
  /-- The command a pseudo-command expands to. -/
  | pseudo (p : PseudoCommand)
  /-- One edge with `rst = 1`. -/
  | reset
  /-- Hold `cmd_valid = 0` for edges until `rsp_valid = 1`. -/
  | wait
  /-- Drive `ks_idx = j` and sample `ks_word`, `ks_word_valid`. -/
  | ksrd (j : Nat)
deriving DecidableEq, Repr

end Sys2Proof
end

