-- ==== Sys2Proof/WellFormed.lean ====
section
/-!
DEFINITION. Which commands are legal, and which written lines can be encoded. Every value of `Instr` has an
encoding and a meaning: an illegal command is not refused by the machine, it is answered with an error
(spec/30_encoding.md rule R65). `Instr.wellFormed` is the line rule R65 draws; the checks on written lines are
rules R66 and R67.
-/

namespace Sys2Proof

/-- The key lengths in bytes that `KEXP` takes (rules R13, R63). -/
def keyLengths : List Nat := [16, 24, 32]

/-- Rule R65: neither the reserved opcode nor an illegal operand. -/
def Instr.wellFormed : Instr → Bool
  | .rsvd _ _ => false
  | .kexp len _ => decide (len.toNat ∈ keyLengths)
  | .enc len _ => decide (len.toNat = 16)
  | .dec len _ => decide (len.toNat = 16)

/-- Rule R66: `len` is a number from 0 to 63 and at most 32 bytes (64 digits) are written. -/
def CommandLine.wellFormed (c : CommandLine) : Bool :=
  decide (c.len ≤ 63) && decide (c.bytes.length ≤ Config.busBytes)

/-- Rule R67: each pseudo-command is written with exactly the bytes its length names. -/
def PseudoCommand.wellFormed : PseudoCommand → Bool
  | .kexp128 key => decide (key.length = 16)
  | .kexp192 key => decide (key.length = 24)
  | .kexp256 key => decide (key.length = 32)
  | .encb block => decide (block.length = 16)
  | .decb block => decide (block.length = 16)

/-- A written line is well formed when its command is; `ks_idx` is a 6-bit port (rule R23). -/
def HostAction.wellFormed : HostAction → Bool
  | .command c => c.wellFormed
  | .pseudo p => p.wellFormed
  | .reset => true
  | .wait => true
  | .ksrd j => decide (j ≤ 63)

end Sys2Proof
end

