-- ==== Sys2Proof/Decode.lean ====
section
/-!
DEFINITION. The command word of spec/30_encoding.md: the fields of format `CMD` (rule R61), the decoder
(rule R62; total, since all four opcodes are assigned) and the encoder written from the same table; the
encoding of written lines (rules R66, R67).
-/

namespace Sys2Proof

/-- A command word `cmd = {cmd_op, cmd_len, cmd_data}` of 264 bits (rule R61). -/
abbrev CmdWord := BitVec 264

/-- Field `op`, bits [263:262] (rule R61). -/
def CmdWord.op (cmd : CmdWord) : BitVec 2 := cmd.extractLsb' 262 2

/-- Field `len`, bits [261:256] (rule R61). -/
def CmdWord.len (cmd : CmdWord) : BitVec 6 := cmd.extractLsb' 256 6

/-- Field `data`, bits [255:0] (rule R61). -/
def CmdWord.data (cmd : CmdWord) : BitVec 256 := cmd.extractLsb' 0 256

/-- The header byte, bits [263:256] (rule R61). -/
def CmdWord.header (cmd : CmdWord) : Byte := cmd.extractLsb' 256 8

/-- The opcode map (rule R62) on the three ports `cmd_op`, `cmd_len`, `cmd_data`. -/
def decodePorts (op : BitVec 2) (len : BitVec 6) (data : BitVec 256) : Instr :=
  if op = 0b00#2 then .rsvd len data
  else if op = 0b01#2 then .kexp len data
  else if op = 0b10#2 then .enc len data
  else .dec len data

/-- The decoder: every one of the 2^264 words is one command (rules R62, R65). -/
def decode (cmd : CmdWord) : Instr := decodePorts cmd.op cmd.len cmd.data

/-- `{op, len, data}` as one word (rule R61). -/
def packCommand (op : BitVec 2) (len : BitVec 6) (data : BitVec 256) : CmdWord := op ++ len ++ data

/-- The opcode of a command (rule R62). -/
def Instr.opcode : Instr → BitVec 2
  | .rsvd _ _ => 0b00#2
  | .kexp _ _ => 0b01#2
  | .enc _ _ => 0b10#2
  | .dec _ _ => 0b11#2

/-- The length field of a command. -/
def Instr.lenField : Instr → BitVec 6
  | .rsvd len _ => len
  | .kexp len _ => len
  | .enc len _ => len
  | .dec len _ => len

/-- The data field of a command. -/
def Instr.dataField : Instr → BitVec 256
  | .rsvd _ data => data
  | .kexp _ data => data
  | .enc _ data => data
  | .dec _ data => data

/-- The encoder: the command word of a command (rules R61, R62). -/
def encode (i : Instr) : CmdWord := packCommand i.opcode i.lenField i.dataField

/-- The low `nbits` bits of `w` as a command word; every bit above them is 0. -/
def tableCommandWord (nbits w : Nat) : CmdWord := BitVec.ofNat 264 (w % 2 ^ nbits)

/-- The command whose bits are `w`, numbered as spec/opcode_table.json numbers them: the format is one word of
264 bits, bit 0 its least significant (rule R61; log entry 8). Decoding is total, so it always answers. -/
def decodeTableWord (nbits w : Nat) : Option Instr := some (decode (tableCommandWord nbits w))

/-- The data field in which `DataByte(0)`, `DataByte(1)`, … are `bytes` and every lane not written is 0
(rules R40, R66): byte 0 is the most significant byte of the bus. -/
def dataOfBytes (bytes : List Byte) : BitVec 256 :=
  BitVec.ofNat 256
    ((List.range Config.busBytes).foldl (fun acc i => acc * 256 + (bytes.getD i 0).toNat) 0)

/-- The command with the given mnemonic and fields. -/
def Mnemonic.command (m : Mnemonic) (len : BitVec 6) (data : BitVec 256) : Instr :=
  match m with
  | .rsvd => .rsvd len data
  | .kexp => .kexp len data
  | .enc => .enc len data
  | .dec => .dec len data

/-- The command a written line stands for (rule R66); for a line that is not well formed, none. -/
def CommandLine.toInstr (c : CommandLine) : Option Instr :=
  if c.wellFormed then some (c.mnemonic.command (BitVec.ofNat 6 c.len) (dataOfBytes c.bytes)) else none

/-- The expansion of a pseudo-command (rule R67). -/
def PseudoCommand.expand : PseudoCommand → CommandLine
  | .kexp128 key => ⟨.kexp, 16, key⟩
  | .kexp192 key => ⟨.kexp, 24, key⟩
  | .kexp256 key => ⟨.kexp, 32, key⟩
  | .encb block => ⟨.enc, 16, block⟩
  | .decb block => ⟨.dec, 16, block⟩

/-- The command a pseudo-command stands for; for one that is not well formed, none. -/
def PseudoCommand.toInstr (p : PseudoCommand) : Option Instr :=
  if p.wellFormed then p.expand.toInstr else none

end Sys2Proof
end

