-- ==== Sys2Proof/Machine/State.lean ====
section
/-!
DEFINITION. The machine's state (spec/10_state.md): every register of the spec under its own name, the
key-schedule memory, and the samples of the input ports that the host drives; the reasons a step can stop;
the state after reset (rule R26).
-/

namespace Sys2Proof.Machine

/-- The levels of the input ports at one rising edge of `clk` (rule R23). The clock itself is the step. -/
structure Pins where
  rst : Bool
  cmdValid : Bool
  cmdOp : BitVec 2
  cmdLen : BitVec 6
  cmdData : BitVec 256
  ksIdx : BitVec 6
deriving DecidableEq, Repr

/-- A host that drives nothing: no reset, no command (rule R189, "no command"). -/
def Pins.quiet : Pins := ⟨false, false, 0, 0, 0, 0⟩

/-- The four values of `PHASE` (rule R19). -/
inductive Phase where
  | idle
  | kexpRun
  | encRun
  | decRun
deriving DecidableEq, Repr

/-- The errors a command can raise (spec/60_exceptions.md rule R160). They are no faults: raising one is a next state
with the response registers written (rule R166). -/
inductive Err where
  | invalidKeyLength
  | invalidBlockLength
  | illegalCommand
  | noKeySchedule
deriving DecidableEq, Repr

/-- The key-schedule memory `W` as bytes: byte `k` of word `i` is the cell at `4·i + k` (log entry 4). In
its one canonical form the addresses rise strictly and no cell holds what an unlisted address reads as. -/
abbrev Memory := List Host.Cell

/-- Why a step stops. Both reasons are for an index that lies outside an address space of
spec/20_memory.md rule R44; rule R46 says no access of the hardware has one, and no state that satisfies
the model's invariant raises one (log entry 5). -/
inductive Fault where
  /-- A step of a running command computes a word index outside `KS` (below 0 or above 59). Raised by
  `kexpStep`, `encStep`, `decStep`, only in states no run reaches. Safe: the model stops. -/
  | ksIndexOutOfSpace
  /-- A key-expansion step computes a round-constant index above 10. Raised by `kexpStep`, only in
  states no run reaches. Safe: the model stops. -/
  | rconIndexOutOfSpace
deriving DecidableEq, Repr

/-- Why an instruction has no meaning. -/
inductive Refusal where
  /-- An instruction without a meaning would be rejected by its mnemonic in `exec`. Nothing raises it:
  every instruction has its meaning. Safe. -/
  | notModelled (mnemonic : String)
deriving DecidableEq, Repr

/-- The state of the core. -/
structure State where
  /-- `NK`: words in the key of the current schedule, 0, 4, 6 or 8 (rule R13). -/
  nk : BitVec 4
  /-- `KS_VALID`: `W` holds a complete schedule (rule R17). -/
  ksValid : Bool
  /-- `W[0..59]`: the key schedule (rule R15). -/
  w : Memory
  /-- `RSP_VALID`: the response registers hold the answer to the last accepted command (rule R18). -/
  rspValid : Bool
  /-- `RSP_ERR`: the error code of that answer (rule R18). -/
  rspErr : BitVec 3
  /-- `RSP_DATA`: the output block of that answer (rule R18). -/
  rspData : BitVec 128
  /-- `PHASE`: what the sequencer is doing (rule R19). -/
  phase : Phase
  /-- `RND`: the round counter of `ENC` and `DEC` (rule R20). -/
  rnd : BitVec 4
  /-- `KIDX`: the word index of `KEXP` (rule R21). -/
  kidx : BitVec 6
  /-- `S`: the State of the block being transformed (rule R12). -/
  s : Grid
  /-- The MODEL'S own field, no register: what the host drives on the input ports at the coming rising
  edges, one sample an edge, the first for the next edge; past its end the host drives nothing (log
  entry 2). It is no queue of commands: each edge uses up one sample, looked at or not. -/
  inputs : List Pins
deriving DecidableEq, Repr

/-- The state after a reset step (rule R26), with a host that drives nothing. -/
def State.reset : State where
  nk := 0
  ksValid := false
  w := []
  rspValid := false
  rspErr := 0
  rspData := 0
  phase := .idle
  rnd := 0
  kidx := 0
  s := Grid.zero
  inputs := []

end Sys2Proof.Machine
end

