-- ==== Sys2Proof/Machine/Operands.lean ====
section
/-!
DEFINITION. Every operand form of the command set: the byte lanes of the buses (spec/20_memory.md rules R40, R41),
the packing of a Word (spec/10_state.md rule R11), operand assembly (spec/30_encoding.md rule R64), `LoadState` and
`StoreState` (rules R42, R43), the cut of the key into words (spec/43_key_expand.md rule R123), and the buses of the
module `aes_cipher_round` (spec/42_cipher_round.md rule R111).
-/

namespace Sys2Proof.Machine

/-- `DataByte(i) = cmd_data[255 − 8·i : 248 − 8·i]` for the lanes 0 to 31 (rule R40). -/
def dataByte (data : BitVec 256) (i : Nat) : Byte := data.extractLsb' (248 - 8 * i) 8

/-- The key a `KEXP` supplies: `key[i] = DataByte(i)` for `i < len` (rules R64, R127). -/
def keyBytes (data : BitVec 256) (len : Nat) : List Byte := (List.range len).map (dataByte data)

/-- The block an `ENC` or `DEC` supplies: `DataByte(0..15)` (rules R64, R142, R152). -/
def dataBlock (data : BitVec 256) : Block := fun i => dataByte data i.val

/-- `LoadState(b)`: byte `i` goes to column `i div 4`, row `i mod 4`, so `s[c][r] = b[4c + r]`
(rule R42). -/
def loadState (b : Block) : Grid := Grid.ofFn fun c r => b ⟨4 * c.val + r.val, by omega⟩

/-- `StoreState(s)`: `b[i] = s[i div 4][i mod 4]` (rule R43). -/
def storeState (s : Grid) : Block := fun i => s.get ⟨i.val / 4, by omega⟩ ⟨i.val % 4, by omega⟩

/-- A Word on a 32-bit register or port: `a0` in bits [31:24] down to `a3` in bits [7:0] (rule R11). -/
def packWord (w : Word) : BitVec 32 := w.a0 ++ w.a1 ++ w.a2 ++ w.a3

/-- A block on the response bus: byte `i` in bits [127 − 8i : 120 − 8i] (rule R41). -/
def packBlock (b : Block) : BitVec 128 :=
  b 0 ++ b 1 ++ b 2 ++ b 3 ++ b 4 ++ b 5 ++ b 6 ++ b 7 ++
    b 8 ++ b 9 ++ b 10 ++ b 11 ++ b 12 ++ b 13 ++ b 14 ++ b 15

/-- The block on a 128-bit bus, byte `i` in bits [127 − 8i : 120 − 8i] (rules R41, R111). -/
def unpackBlock (v : BitVec 128) : Block := fun i => v.extractLsb' (120 - 8 * i.val) 8

/-- The round key on a 128-bit bus: `rk[0]` in bits [127:96] down to `rk[3]` in bits [31:0]
(rule R111). -/
def unpackRoundKey (v : BitVec 128) : RoundKey := fun c => (loadState (unpackBlock v)).col c

/-- `KeyWords(key, Nk)`: `w[j] = [key[4j], key[4j+1], key[4j+2], key[4j+3]]` (rule R123). -/
def keyWords (key : List Byte) (nk : Nat) : List Word :=
  (List.range nk).map fun j =>
    ⟨key.getD (4 * j) 0, key.getD (4 * j + 1) 0, key.getD (4 * j + 2) 0, key.getD (4 * j + 3) 0⟩

/-- The module `aes_cipher_round` on its ports (rule R111): `FinalRound` if `final = 1`, else `Round`. -/
def aesCipherRound (stateIn roundKey : BitVec 128) (final : Bool) : BitVec 128 :=
  let s := loadState (unpackBlock stateIn)
  let rk := unpackRoundKey roundKey
  packBlock (storeState (if final then finalRound s rk else cipherRound s rk))

end Sys2Proof.Machine
end

