-- ==== Sys2Proof/Machine/Flags.lean ====
section
/-!
DEFINITION. Every flag and status computation: the codes of `PHASE` and `RSP_ERR` (spec/10_state.md rule R19,
spec/60_exceptions.md rule R160), the functions `NR` and `NW` of `NK` (rule R14), the checks of the accept step
and their order (spec/30_encoding.md rule R63, spec/60_exceptions.md rule R165).
-/

namespace Sys2Proof.Machine

/-- The 2-bit code of `PHASE` (rule R19). -/
def Phase.code : Phase → BitVec 2
  | .idle => 0b00#2
  | .kexpRun => 0b01#2
  | .encRun => 0b10#2
  | .decRun => 0b11#2

/-- The 3-bit error codes (rule R160); code 0 is no error. -/
def Err.code : Err → BitVec 3
  | .invalidKeyLength => 1
  | .invalidBlockLength => 2
  | .illegalCommand => 3
  | .noKeySchedule => 4

/-- `NR`, the number of rounds, as a function of `NK` (rule R14). -/
def nrOf (nk : Nat) : Nat := if nk = 0 then 0 else nk + 6

/-- `NW`, the number of words of the schedule, as a function of `NK` (rule R14). -/
def nwOf (nk : Nat) : Nat := if nk = 0 then 0 else Config.nb * (nrOf nk + 1)

/-- `NR` of a state (rule R14). -/
def State.nr (s : State) : Nat := nrOf s.nk.toNat

/-- `NW` of a state (rule R14). -/
def State.nw (s : State) : Nat := nwOf s.nk.toNat

/-- The check of `KEXP` at its accept step (rules R63, R161). -/
def keyError (len : BitVec 6) : Option Err :=
  if len.toNat ∈ keyLengths then none else some .invalidKeyLength

/-- The checks of `ENC` and `DEC` at their accept step: first the length, then `KS_VALID` (rules R63,
R162, R164, R165). -/
def blockError (len : BitVec 6) (ksValid : Bool) : Option Err :=
  if len.toNat = 16 then (if ksValid then none else some .noKeySchedule) else some .invalidBlockLength

/-- The error the accept step of a command raises in a state, if any: the opcode is tested first (rules
R63, R165). -/
def acceptError (i : Instr) (s : State) : Option Err :=
  match i with
  | .rsvd _ _ => some .illegalCommand
  | .kexp len _ => keyError len
  | .enc len _ => blockError len s.ksValid
  | .dec len _ => blockError len s.ksValid

/-- The three checks of a key-expansion step's indices: `W[KIDX − NK]`, `W[KIDX − 1]` and `W[KIDX]` lie in
`KS`, and where the round constants are read, the index is at most 10. Rules R46 and R45 say that they
hold; the machine stops where they would not (log entry 5). -/
def kexpIndexFault (nk i : Nat) : Option Fault :=
  if i < nk ∨ i < 1 ∨ Config.ksDepth ≤ i then some .ksIndexOutOfSpace
  else if i % nk = 0 ∧ Config.rconDepth ≤ i / nk then some .rconIndexOutOfSpace
  else none

/-- Whether the four words of round key `r` lie in `KS` (rules R16, R46; log entry 5). -/
def roundKeyFault (r : Nat) : Option Fault :=
  if 4 * r + 3 < Config.ksDepth then none else some .ksIndexOutOfSpace

end Sys2Proof.Machine
end

