-- ==== Sys2Proof/Machine/Ops.lean ====
section
/-!
DEFINITION. The named operations over memory and registers: the key-schedule memory (spec/20_memory.md rules
R44, R46), the response registers (spec/10_state.md rule R18), raising an error, the core's exception
(spec/60_exceptions.md rule R166), the reset step (spec/70_reset_and_hazards.md rule R180), the input samples, and
the output ports (spec/10_state.md rule R24). There is no return from an error (rule R167): the next accept step
overwrites the response.
-/

namespace Sys2Proof.Machine

/-! ## The key-schedule memory -/

/-- What a cell that is not listed reads as: the reset contents, `W[i] = 0x00000000` (rule R26). -/
def unlistedByte : Byte := 0x00#8

/-- The number of cells of the `KS` space: 60 words of 4 bytes (rule R44). -/
def ksCells : Nat := 4 * Config.ksDepth

/-- The byte at cell `a`. -/
def Memory.read : Memory → Nat → Byte
  | [], _ => unlistedByte
  | c :: m, a => if c.1 = a then c.2 else Memory.read m a

/-- The memory without the cell `a`. -/
def Memory.erase : Memory → Nat → Memory
  | [], _ => []
  | c :: m, a => if c.1 = a then Memory.erase m a else c :: Memory.erase m a

/-- The memory with the cell `a` listed before the first higher address. -/
def Memory.insert : Memory → Nat → Byte → Memory
  | [], a, v => [(a, v)]
  | c :: m, a, v => if a < c.1 then (a, v) :: c :: m else c :: Memory.insert m a v

/-- The memory after the byte `v` is written to cell `a`: writing what an unlisted cell reads as leaves
the cell unlisted. -/
def Memory.write (m : Memory) (a : Nat) (v : Byte) : Memory :=
  if v = unlistedByte then Memory.erase m a else Memory.insert (Memory.erase m a) a v

/-- The one canonical form: addresses rise strictly, lie in the space, and no cell holds what an unlisted
one reads as. -/
def Memory.wf : Memory → Bool
  | [] => true
  | c :: m => decide (c.2 ≠ unlistedByte) && decide (c.1 < ksCells) &&
      m.all (fun d => decide (c.1 < d.1)) && Memory.wf m

/-- `MemRead(i, 4)`: the word `W[i]` (rule R46). -/
def memRead (m : Memory) (i : Nat) : Word :=
  ⟨Memory.read m (4 * i), Memory.read m (4 * i + 1), Memory.read m (4 * i + 2), Memory.read m (4 * i + 3)⟩

/-- `MemWrite(i, 4, v)`: `W[i] <- v` (rule R46). -/
def memWrite (m : Memory) (i : Nat) (v : Word) : Memory :=
  Memory.write (Memory.write (Memory.write (Memory.write m (4 * i) v.a0) (4 * i + 1) v.a1) (4 * i + 2) v.a2)
    (4 * i + 3) v.a3

/-- `MemWrite` of the words `ws` to `W[i]`, `W[i+1]`, … in order: the loops of rule R129. -/
def memWriteList (m : Memory) (i : Nat) : List Word → Memory
  | [] => m
  | v :: ws => memWriteList (memWrite m i v) (i + 1) ws

/-- `RoundKey(r) = [W[4r], W[4r+1], W[4r+2], W[4r+3]]`: the round-key read port (rules R16, R120). -/
def roundKey (m : Memory) (r : Nat) : RoundKey := fun c => memRead m (4 * r + c.val)

/-- The first `n` words of the memory, `W[0 .. n−1]`. -/
def scheduleWords (m : Memory) (n : Nat) : List Word := (List.range n).map (memRead m)

/-! ## The input samples -/

/-- The levels of the input ports at the coming edge: the first sample, or a host that drives nothing
where no sample is left (log entry 2). -/
def State.pins (s : State) : Pins := s.inputs.headD Pins.quiet

/-- The state with the coming edge's sample used up. -/
def State.advance (s : State) : State := { s with inputs := s.inputs.tail }

/-- The state in which the host drives `p` at the coming edge and what it drove before at the later ones. -/
def State.drive (s : State) (p : Pins) : State := { s with inputs := p :: s.inputs.tail }

/-- The sample that presents a command word (rules R61, R184). -/
def Pins.present (cmd : CmdWord) : Pins where
  rst := false
  cmdValid := true
  cmdOp := cmd.op
  cmdLen := cmd.len
  cmdData := cmd.data
  ksIdx := 0

/-- The command on the ports (rules R61, R62). -/
def Pins.command (p : Pins) : Instr := decodePorts p.cmdOp p.cmdLen p.cmdData

/-! ## The response registers, errors and reset -/

/-- The three response registers, written together (rules R18, R50). -/
def respond (s : State) (valid : Bool) (err : BitVec 3) (data : BitVec 128) : State :=
  { s with rspValid := valid, rspErr := err, rspData := data }

/-- The accept step of a command that raises no error clears the response (rule R18). -/
def clearResponse (s : State) : State := respond s false 0 0

/-- `raise E`: the response registers are written and nothing else (rule R166). This is the core's whole
exception entry: nothing is saved and no mode changes. -/
def raiseError (s : State) (e : Err) : State := respond s true e.code 0

/-- The reset step: every register takes its reset value, whatever the phase (rules R26, R180, R182). The
host's samples are no register and stay. -/
def resetStep (s : State) : State := { State.reset with inputs := s.inputs }

/-! ## The output ports -/

/-- The output ports (rule R24). -/
structure Ports where
  cmdReady : Bool
  busy : Bool
  rspValid : Bool
  rspErr : BitVec 3
  rspData : BitVec 128
  ksValid : Bool
  ksNk : BitVec 4
  ksNr : BitVec 4
  ksWordValid : Bool
  ksWord : BitVec 32
deriving DecidableEq, Repr

/-- `ks_word_valid` for the index on `ks_idx` (rules R24, R47, R51). -/
def ksWordValid (s : State) (j : BitVec 6) : Bool := s.ksValid && decide (j.toNat < s.nw)

/-- `ks_word` for the index on `ks_idx` (rules R24, R47, R51). -/
def ksWord (s : State) (j : BitVec 6) : BitVec 32 :=
  if ksWordValid s j then packWord (memRead s.w j.toNat) else 0

/-- The output ports as a function of the state and of `ks_idx`, which they follow without an edge
(rule R24). -/
def ports (s : State) (j : BitVec 6) : Ports where
  cmdReady := decide (s.phase = .idle)
  busy := decide (s.phase ≠ .idle)
  rspValid := s.rspValid
  rspErr := s.rspErr
  rspData := s.rspData
  ksValid := s.ksValid
  ksNk := s.nk
  ksNr := BitVec.ofNat 4 s.nr
  ksWordValid := ksWordValid s j
  ksWord := ksWord s j

end Sys2Proof.Machine
end

