-- ==== Sys2Proof/Machine/KeySchedule.lean ====
section
/-!
DEFINITION. The functions of the module `aes_key_expand` (spec/43_key_expand.md): `RotWord`, `SubWord`, `Temp`,
`ExpandKey` (rules R121 to R126). `KeyWords` (rule R123) is an operand form and stands in Operands.lean.
-/

namespace Sys2Proof.Machine

/-- `RotWord([a0,a1,a2,a3]) = [a1,a2,a3,a0]` (rule R121). -/
def rotWord (w : Word) : Word := ⟨w.a1, w.a2, w.a3, w.a0⟩

/-- `SubWord`: the S-box on each of the four bytes (rule R122). -/
def subWord (w : Word) : Word := ⟨sbox w.a0, sbox w.a1, sbox w.a2, sbox w.a3⟩

/-- `Temp(i, Nk, prev)`, the middle of the recurrence (rule R125). -/
def keyTemp (i nk : Nat) (prev : Word) : Word :=
  if i % nk = 0 then Word.xor (subWord (rotWord prev)) (rcon (i / nk))
  else if 6 < nk ∧ i % nk = 4 then subWord prev
  else prev

/-- One turn of the loop of rule R126: the next word, `schedule[i − Nk] ^ Temp(i, Nk, schedule[i − 1])`. -/
def expandTurn (nk : Nat) (schedule : List Word) (i : Nat) : List Word :=
  schedule ++
    [Word.xor (schedule.getD (i - nk) Word.zero) (keyTemp i nk (schedule.getD (i - 1) Word.zero))]

/-- `ExpandKey(key)`: the key's words, then the recurrence for `i` from `Nk` to `4·(Nr+1) − 1`
(rule R126). Defined by the spec for keys of 16, 24 and 32 bytes. -/
def expandKey (key : List Byte) : List Word :=
  let nk := key.length / 4
  (List.range' nk (nwOf nk - nk)).foldl (expandTurn nk) (keyWords key nk)

end Sys2Proof.Machine
end

