-- ==== Sys2Proof/Machine/Cipher.lean ====
section
/-!
DEFINITION. The two drivers as pure functions of block, schedule and `Nr`: `Encrypt` (spec/44_encrypt_core.md rule
R141) and `Decrypt` (spec/45_decrypt_core.md rule R150).
-/

namespace Sys2Proof.Machine

/-- `rk(r)`: the four words `schedule[4r .. 4r+3]` (rules R16, R141, R150). -/
def scheduleKey (schedule : List Word) (r : Nat) : RoundKey :=
  fun c => schedule.getD (4 * r + c.val) Word.zero

/-- `Encrypt(block, schedule, Nr)` (rule R141). -/
def encrypt (block : Block) (schedule : List Word) (nr : Nat) : Block :=
  let start := addRoundKey (loadState block) (scheduleKey schedule 0)
  let middle :=
    (List.range' 1 (nr - 1)).foldl (fun s round => cipherRound s (scheduleKey schedule round)) start
  storeState (finalRound middle (scheduleKey schedule nr))

/-- `Decrypt(block, schedule, Nr)`: the round keys from high to low, each as it stands in the schedule
(rule R150). -/
def decrypt (block : Block) (schedule : List Word) (nr : Nat) : Block :=
  let start := addRoundKey (loadState block) (scheduleKey schedule nr)
  let middle :=
    (List.range' 1 (nr - 1)).foldl (fun s round => invRound s (scheduleKey schedule (nr - round))) start
  storeState (invFinalRound middle (scheduleKey schedule 0))

end Sys2Proof.Machine
end

