-- ==== Sys2Proof/Machine/Enc.lean ====
section
/-!
DEFINITION. The command `ENC` (spec/44_encrypt_core.md): its accept step and the step of its run, the reference
sequencer of rule R143. All right-hand sides are read before any register is written.
-/

namespace Sys2Proof.Machine

/-- The accept step `ENC` and `DEC` share: `S` is loaded, the response is cleared, the run starts (rules
R143, R153). -/
def blockAccept (run : Phase) (data : BitVec 256) (s : State) : State :=
  { clearResponse s with s := loadState (dataBlock data), rnd := 0, phase := run }

/-- The last step `ENC` and `DEC` share: the block goes to `RSP_DATA`, `S` is cleared, the core is idle
(rules R143, R153). -/
def blockFinish (out : Grid) (s : State) : State :=
  { respond s true 0 (packBlock (storeState out)) with s := Grid.zero, rnd := 0, phase := .idle }

/-- `EncAccept(data)` (rule R143). -/
def encAccept (data : BitVec 256) (s : State) : State := blockAccept .encRun data s

/-- `EncStep`, the step while `PHASE = ENC_RUN`: step 2, one round of step 3, or steps 4 and 5, by `RND`
(rule R143). -/
def encStep (s : State) : Host.Outcome State Fault Refusal :=
  let r := s.rnd.toNat
  if r = 0 then
    .next { s with s := addRoundKey s.s (roundKey s.w 0), rnd := 1 }
  else if r < s.nr then
    match roundKeyFault r with
    | none => .next { s with s := cipherRound s.s (roundKey s.w r), rnd := s.rnd + 1 }
    | some f => .fault f
  else
    match roundKeyFault s.nr with
    | none => .next (blockFinish (finalRound s.s (roundKey s.w s.nr)) s)
    | some f => .fault f

/-- `ENC` at its accept step: the length is checked, then `KS_VALID`; otherwise the encryption starts
(rules R63, R142). -/
def execEnc (len : BitVec 6) (data : BitVec 256) (s : State) : Host.Outcome State Fault Refusal :=
  match blockError len s.ksValid with
  | some e => .next (raiseError s e)
  | none => .next (encAccept data s)

end Sys2Proof.Machine
end

