-- ==== Sys2Proof/Machine/Dec.lean ====
section
/-!
DEFINITION. The command `DEC` (spec/45_decrypt_core.md): its accept step and the step of its run, the reference
sequencer of rule R153. All right-hand sides are read before any register is written.
-/

namespace Sys2Proof.Machine

/-- `DecAccept(data)` (rule R153). -/
def decAccept (data : BitVec 256) (s : State) : State := blockAccept .decRun data s

/-- `DecStep`, the step while `PHASE = DEC_RUN`: `RND` counts up and the round-key index `NR − RND` counts
down (rule R153). -/
def decStep (s : State) : Host.Outcome State Fault Refusal :=
  let r := s.rnd.toNat
  if r = 0 then
    match roundKeyFault s.nr with
    | none => .next { s with s := addRoundKey s.s (roundKey s.w s.nr), rnd := 1 }
    | some f => .fault f
  else if r < s.nr then
    match roundKeyFault (s.nr - r) with
    | none => .next { s with s := invRound s.s (roundKey s.w (s.nr - r)), rnd := s.rnd + 1 }
    | some f => .fault f
  else
    .next (blockFinish (invFinalRound s.s (roundKey s.w 0)) s)

/-- `DEC` at its accept step: the length is checked, then `KS_VALID`; otherwise the decryption starts
(rules R63, R152). -/
def execDec (len : BitVec 6) (data : BitVec 256) (s : State) : Host.Outcome State Fault Refusal :=
  match blockError len s.ksValid with
  | some e => .next (raiseError s e)
  | none => .next (decAccept data s)

end Sys2Proof.Machine
end

