-- ==== Sys2Proof/Machine/Kexp.lean ====
section
/-!
DEFINITION. The command `KEXP` (spec/43_key_expand.md): its accept step and the step of its run, the reference
sequencer of rule R129. All right-hand sides are read before any register is written.
-/

namespace Sys2Proof.Machine

/-- `KexpAccept(len, data)`, for `len` of 16, 24 or 32 (rule R129). -/
def kexpAccept (len : BitVec 6) (data : BitVec 256) (s : State) : State :=
  let nk := len.toNat / 4
  { clearResponse s with
    nk := BitVec.ofNat 4 nk
    ksValid := false
    w := memWriteList s.w 0 (keyWords (keyBytes data len.toNat) nk)
    kidx := BitVec.ofNat 6 nk
    phase := .kexpRun }

/-- The word step of `KexpStep`: `W[KIDX] <- W[KIDX − NK] ^ Temp(KIDX, NK, W[KIDX − 1])` (rule R129). -/
def kexpWord (s : State) : State :=
  let i := s.kidx.toNat
  let nk := s.nk.toNat
  { s with
    w := memWrite s.w i (Word.xor (memRead s.w (i - nk)) (keyTemp i nk (memRead s.w (i - 1))))
    kidx := s.kidx + 1 }

/-- The finishing step of `KexpStep`: the words above the schedule are cleared and the schedule is valid
(rule R129). -/
def kexpFinish (s : State) : State :=
  { respond s true 0 0 with
    w := memWriteList s.w s.nw (List.replicate (Config.ksDepth - s.nw) Word.zero)
    ksValid := true
    kidx := 0
    phase := .idle }

/-- `KexpStep`, the step while `PHASE = KEXP_RUN` (rule R129). -/
def kexpStep (s : State) : Host.Outcome State Fault Refusal :=
  if s.kidx.toNat < s.nw then
    match kexpIndexFault s.nk.toNat s.kidx.toNat with
    | none => .next (kexpWord s)
    | some f => .fault f
  else .next (kexpFinish s)

/-- `KEXP` at its accept step: a length other than 16, 24 or 32 raises `InvalidKeyLength`; otherwise the
expansion starts (rules R63, R128). -/
def execKexp (len : BitVec 6) (data : BitVec 256) (s : State) : Host.Outcome State Fault Refusal :=
  match keyError len with
  | some e => .next (raiseError s e)
  | none => .next (kexpAccept len data s)

end Sys2Proof.Machine
end

