-- ==== Sys2Proof/Machine/Rsvd.lean ====
section
/-!
DEFINITION. The reserved opcode `RSVD` (spec/30_encoding.md rule R65, spec/60_exceptions.md rule R163).
-/

namespace Sys2Proof.Machine

/-- `RSVD`: raises `IllegalCommand`, whatever `len` and `data` are (rule R163). -/
def execRsvd (_len : BitVec 6) (_data : BitVec 256) (s : State) : Host.Outcome State Fault Refusal :=
  .next (raiseError s .illegalCommand)

end Sys2Proof.Machine
end

