-- ==== Sys2Proof/Machine/Dispatch.lean ====
section
/-!
DEFINITION. The accept step `Accept(op, len, data)` of spec/30_encoding.md rule R63 by command: one arm for each
constructor of Instr, each a direct call of its meaning.
-/

namespace Sys2Proof.Machine

def exec (i : Instr) (s : State) : Host.Outcome State Fault Refusal :=
  match i with
  | .rsvd len data => Sys2Proof.Machine.execRsvd len data s
  | .kexp len data => Sys2Proof.Machine.execKexp len data s
  | .enc len data => Sys2Proof.Machine.execEnc len data s
  | .dec len data => Sys2Proof.Machine.execDec len data s

end Sys2Proof.Machine
end

