-- ==== Sys2Proof/Machine/Clock.lean ====
section
/-!
DEFINITION. One rising edge of `clk` (spec/10_state.md rule R22), and how a command is placed so that the next
edge accepts it (spec/70_reset_and_hazards.md rule R184; log entry 7).
-/

namespace Sys2Proof.Machine

/-- The step of the command in progress, by `PHASE`; while the core is idle there is none and nothing
changes (rule R22). It reads no input. -/
def runStep (s : State) : Host.Outcome State Fault Refusal :=
  match s.phase with
  | .idle => .next s
  | .kexpRun => kexpStep s
  | .encRun => encStep s
  | .decRun => decStep s

/-- The step at the edge at which the inputs are `p` (rule R22): reset first; then, while idle, a presented
command is accepted; otherwise the command in progress runs. -/
def edge (p : Pins) (s : State) : Host.Outcome State Fault Refusal :=
  if p.rst then .next (resetStep s)
  else if s.phase = .idle ∧ p.cmdValid = true then exec p.command s
  else runStep s

/-- One rising edge: the coming sample is used up and the edge happens with its levels. -/
def clockEdge (s : State) : Host.Outcome State Fault Refusal := edge s.pins s.advance

/-- The state in which the next edge accepts the command word `cmd`: the host presents it, and the core is
idle, since it accepts a command in no other phase (rule R184). From an idle state only the sample of the
coming edge changes. -/
def placeCommand (s : State) (cmd : CmdWord) : State :=
  { s.drive (Pins.present cmd) with phase := .idle }

end Sys2Proof.Machine
end

