-- ==== Sys2Proof/Machine/Step.lean ====
section
/-!
DEFINITION. The step function and the placing of the next command. Both only call Sys2Proof/Machine/Clock.lean.
-/

namespace Sys2Proof.Machine

/-- One step of the core is one rising edge of `clk` (spec/10_state.md rule R22). -/
def step (s : State) : Host.Outcome State Fault Refusal := clockEdge s

/-- The state in which the next step accepts and runs the command whose bits are `w`, numbered as
spec/opcode_table.json numbers them (log entries 7 and 8). -/
def State.withFetchWord (s : State) (nbits w : Nat) : State := placeCommand s (tableCommandWord nbits w)

end Sys2Proof.Machine
end

