-- ==== Sys2Proof/Machine/Atomic.lean ====
section
/-!
DEFINITION. The atomic view of a command (spec/10_state.md rule R25): the idle-to-idle result of each command (rules
R128, R142, R152, R166) and a core that reaches it after any latency the open parameters of spec/00_scope.md
rule R5 allow, showing in between what rule R25 says the ports show. It is a second, coarser machine; `step` is the
reference sequencer (log entries 1 and 13).
-/

namespace Sys2Proof.Machine

/-- The memory that holds the words `ws` from word 0 on and zero in every other word. -/
def scheduleMemory (ws : List Word) : Memory := memWriteList [] 0 ws

/-- The state a successful `KEXP` ends in (rule R128): all of `W` is a function of the key. -/
def kexpResult (len : BitVec 6) (data : BitVec 256) (s : State) : State :=
  { respond s true 0 0 with
    nk := BitVec.ofNat 4 (len.toNat / 4)
    ksValid := true
    w := scheduleMemory (expandKey (keyBytes data len.toNat))
    phase := .idle
    rnd := 0
    kidx := 0
    s := Grid.zero }

/-- The state a successful `ENC` or `DEC` with output block `out` ends in (rules R142, R152). -/
def blockResult (out : Block) (s : State) : State :=
  { respond s true 0 (packBlock out) with phase := .idle, rnd := 0, s := Grid.zero }

/-- The state a successful `ENC` ends in (rule R142). -/
def encResult (data : BitVec 256) (s : State) : State :=
  blockResult (encrypt (dataBlock data) (scheduleWords s.w s.nw) s.nr) s

/-- The state a successful `DEC` ends in (rule R152). -/
def decResult (data : BitVec 256) (s : State) : State :=
  blockResult (decrypt (dataBlock data) (scheduleWords s.w s.nw) s.nr) s

/-- The idle state a command leads to from an idle state, errors included (rules R128, R142, R152,
R166). -/
def commandResult (i : Instr) (s : State) : State :=
  match acceptError i s with
  | some e => raiseError s e
  | none =>
    match i with
    | .rsvd _ _ => raiseError s .illegalCommand
    | .kexp len data => kexpResult len data s
    | .enc _ data => encResult data s
    | .dec _ data => decResult data s

/-- The edges from the accept edge of a command to its response: none for an error, else the latency of
the command (rules R5, R185, R190). -/
def commandLatency (l : Config.Latency) (i : Instr) (s : State) : Nat :=
  match acceptError i s with
  | some _ => 0
  | none =>
    match i with
    | .rsvd _ _ => 0
    | .kexp len _ => l.kexp (len.toNat / 4)
    | .enc _ _ => l.enc s.nr
    | .dec _ _ => l.dec s.nr

/-- What the ports show while a command that raised no error is in progress (rules R13, R17, R18, R25):
busy, no response, and during a `KEXP` no schedule. -/
def busyState (i : Instr) (s : State) : State :=
  match i with
  | .rsvd _ _ => s
  | .kexp len _ =>
    { clearResponse s with nk := BitVec.ofNat 4 (len.toNat / 4), ksValid := false, phase := .kexpRun }
  | .enc _ _ => { clearResponse s with phase := .encRun }
  | .dec _ _ => { clearResponse s with phase := .decRun }

/-- The atomic core: the registers the ports show, and for a command in progress the edges left and the
state it leads to. -/
structure AtomicCore where
  regs : State
  pending : Option (Nat × State)
deriving DecidableEq, Repr

/-- The atomic core at the edge that accepts the command `i`. -/
def atomicAccept (l : Config.Latency) (i : Instr) (s : State) : AtomicCore :=
  match commandLatency l i s with
  | 0 => ⟨commandResult i s, none⟩
  | n + 1 => ⟨busyState i s, some (n + 1, commandResult i s)⟩

/-- The atomic core at the edge at which the inputs are `p` (rules R22, R25). -/
def atomicEdge (l : Config.Latency) (p : Pins) (a : AtomicCore) : AtomicCore :=
  if p.rst then ⟨resetStep a.regs, none⟩
  else
    match a.pending with
    | none => if p.cmdValid then atomicAccept l p.command a.regs else a
    | some (n, r) =>
      if n ≤ 1 then ⟨{ r with inputs := a.regs.inputs }, none⟩ else ⟨a.regs, some (n - 1, r)⟩

/-- One rising edge of the atomic core. -/
def atomicStep (l : Config.Latency) (a : AtomicCore) : AtomicCore :=
  atomicEdge l a.regs.pins { a with regs := a.regs.advance }

/-- `n` rising edges of the atomic core. -/
def atomicRun (l : Config.Latency) : Nat → AtomicCore → AtomicCore
  | 0, a => a
  | n + 1, a => atomicRun l n (atomicStep l a)

end Sys2Proof.Machine
end

