-- ==== Sys2Proof/Safety.lean ====
section
/-!
DEFINITION. What claims use to speak of a legal state and a safe run: the state invariant (spec/10_state.md rules
R13, R18, R20, R21, R27 and the invariants of the running phases that rules R129, R143, R153 keep), and runs without a
reset.
-/

namespace Sys2Proof.Machine

/-- `NK` names a key size, 4, 6 or 8 (rule R13). -/
abbrev State.keySize (s : State) : Prop := s.nk.toNat ∈ [4, 6, 8]

/-- The first `n` words of `W` are those of the schedule of `key`. -/
def State.agreesWith (s : State) (key : List Byte) (n : Nat) : Prop :=
  ∀ i, i < n → memRead s.w i = (expandKey key).getD i Word.zero

/-- "there is a key k of 4·NK bytes with W[i] = ExpandKey(k)[i] for i < NW and W[i] = 0 for NW ≤ i ≤ 59"
(rule R27). -/
def State.holdsSchedule (s : State) : Prop :=
  s.keySize ∧ ∃ key : List Byte, key.length = 4 * s.nk.toNat ∧ s.agreesWith key s.nw ∧
    ∀ i, s.nw ≤ i → i < Config.ksDepth → memRead s.w i = Word.zero

/-- No response is shown: the response registers are all zero (rule R18). -/
def State.noResponse (s : State) : Prop := s.rspValid = false ∧ s.rspErr = 0 ∧ s.rspData = 0

/-- The response registers hold a legal combination (rules R18, R160, R185): only the codes 0 to 4, no
data beside an error, and all zero while there is no response. -/
def State.responseLegal (s : State) : Prop :=
  s.rspErr.toNat ≤ 4 ∧ (s.rspErr ≠ 0 → s.rspData = 0) ∧ (s.rspValid = false → s.noResponse)

/-- The idle invariant (rule R27). -/
def State.idleInv (s : State) : Prop :=
  s.rnd = 0 ∧ s.kidx = 0 ∧ s.s = Grid.zero ∧
    ((s.ksValid = false ∧ s.nk = 0 ∧ ∀ i, i < Config.ksDepth → memRead s.w i = Word.zero) ∨
      (s.ksValid = true ∧ s.holdsSchedule))

/-- What holds during `KEXP_RUN` (rules R20, R21, R25, R129): `KIDX` counts from `NK` to `NW`, and below it
`W` already agrees with the schedule of the command's key. -/
def State.kexpInv (s : State) : Prop :=
  s.keySize ∧ s.ksValid = false ∧ s.noResponse ∧ s.rnd = 0 ∧ s.s = Grid.zero ∧
    s.nk.toNat ≤ s.kidx.toNat ∧ s.kidx.toNat ≤ s.nw ∧
    ∃ key : List Byte, key.length = 4 * s.nk.toNat ∧ s.agreesWith key s.kidx.toNat

/-- What holds during `ENC_RUN` and `DEC_RUN` (rules R20, R21, R25, R143, R153): a complete schedule, and
`RND` counts from 0 to `NR`. -/
def State.blockInv (s : State) : Prop :=
  s.ksValid = true ∧ s.holdsSchedule ∧ s.noResponse ∧ s.kidx = 0 ∧ s.rnd.toNat ≤ s.nr

/-- The invariant of every state reached from a reset step. -/
def State.Inv (s : State) : Prop :=
  Memory.wf s.w = true ∧ s.responseLegal ∧
    match s.phase with
    | .idle => s.idleInv
    | .kexpRun => s.kexpInv
    | .encRun => s.blockInv
    | .decRun => s.blockInv

/-- No reset is applied at the coming `n` edges. -/
def State.noReset (s : State) (n : Nat) : Prop := ∀ p ∈ s.inputs.take n, p.rst = false

/-- The core is idle and, at the coming edge, the host presents the command `i` without a reset: the edge
is an accept edge of `i` (rule R184). -/
def State.presents (s : State) (i : Instr) : Prop :=
  s.phase = .idle ∧ s.pins.rst = false ∧ s.pins.cmdValid = true ∧ s.pins.command = i

/-- The state after `n` rising edges, stopping at the first fault or refusal. -/
def run : Nat → State → Host.Outcome State Fault Refusal
  | 0, s => .next s
  | n + 1, s =>
    match step s with
    | .next t => run n t
    | .fault f => .fault f
    | .refused r => .refused r

/-- The state with the host's samples of the coming `n` edges used up. -/
def State.afterEdges (s : State) (n : Nat) : State := { s with inputs := s.inputs.drop n }

end Sys2Proof.Machine
end

