-- ==== Sys2Proof/Certificates/Slice0/Obligations.lean ====
section
/-!
DEFINITION. The statements for the provers, from the numbered rules of spec/. None is about a program.
-/

open Sys2Proof Sys2Proof.Machine

/-! ## Reset, one edge, fetching a command -/

/-- The reset state has every value of the table of spec/10_state.md rule R26. -/
def Obligations.ResetStateHoldsSpecValues : Prop :=
  State.reset.phase = .idle ∧ State.reset.rnd = 0 ∧ State.reset.kidx = 0 ∧
    (∀ c r, State.reset.s.get c r = 0x00#8) ∧ State.reset.nk = 0 ∧ State.reset.ksValid = false ∧
    (∀ i, i < 60 → packWord (memRead State.reset.w i) = 0x00000000#32) ∧
    State.reset.rspValid = false ∧ State.reset.rspErr = 0 ∧ State.reset.rspData = 0

/-- An edge with `rst = 1` resets every register, whatever the phase and the other inputs are, and the ports
show the reset state (spec/70_reset_and_hazards.md rules R180, R182). -/
def Obligations.ResetEdgeClearsEverything : Prop :=
  ∀ s : State, s.pins.rst = true →
    ∃ t, step s = .next t ∧ t = { State.reset with inputs := t.inputs } ∧
      ∀ j, ports t j =
        { cmdReady := true, busy := false, rspValid := false, rspErr := 0, rspData := 0, ksValid := false,
          ksNk := 0, ksNr := 0, ksWordValid := false, ksWord := 0 }

/-- The step table of spec/10_state.md rule R22: reset first, then by phase. Around `exec` the step only uses
up the sample of this edge (log entry 2, a convention of the model). -/
def Obligations.StepFollowsEdgeTable : Prop :=
  ∀ s : State, step s =
    if s.pins.rst then .next { State.reset with inputs := s.inputs.tail }
    else
      match s.phase with
      | .idle =>
        if s.pins.cmdValid then exec s.pins.command { s with inputs := s.inputs.tail }
        else .next { s with inputs := s.inputs.tail }
      | .kexpRun => kexpStep { s with inputs := s.inputs.tail }
      | .encRun => encStep { s with inputs := s.inputs.tail }
      | .decRun => decStep { s with inputs := s.inputs.tail }

/-- At an accept edge the step is `exec` of the command decoded from the ports taken as one word, on the state
with that edge's sample used up; a placed command word is accepted by the very next step (spec/30_encoding.md
rules R61, R63, spec/70_reset_and_hazards.md rule R184; log entries 2 and 7). -/
def Obligations.AcceptEdgeRunsDecodedCommand : Prop :=
  (∀ s : State, s.phase = .idle → s.pins.rst = false → s.pins.cmdValid = true →
    step s = exec (decode (packCommand s.pins.cmdOp s.pins.cmdLen s.pins.cmdData)) s.advance) ∧
  (∀ (s : State) (cmd : CmdWord),
    step (placeCommand s cmd) = exec (decode cmd) { s.advance with phase := .idle })

/-- Every step uses up one sample of the input ports, whatever it does with it: the clock samples the ports at
each edge. The list of samples is the model's own choice (log entry 2); a statement of basis "stated" says
nothing of it. -/
def Obligations.EveryEdgeUsesUpOneSample : Prop := ∀ s t : State, step s = .next t → t.inputs = s.inputs.tail

/-- While the core is idle and no command is presented nothing changes; only the sample of the edge is used up
(spec/70_reset_and_hazards.md rule R189, spec/10_state.md rule R22; log entry 2). -/
def Obligations.IdleEdgeWithoutCommandKeepsState : Prop :=
  ∀ s : State, s.phase = .idle → s.pins.rst = false → s.pins.cmdValid = false →
    step s = .next { s with inputs := s.inputs.tail }

/-- The command port is looked at only at an accept edge, and `ks_idx` never: two hosts that agree on `rst`,
and on the command where one is accepted, drive the same step (spec/10_state.md rule R22,
spec/70_reset_and_hazards.md rule R184). -/
def Obligations.UnreadInputsHaveNoEffect : Prop :=
  ∀ (s : State) (p q : Pins) (later : List Pins), p.rst = q.rst →
    (s.phase ≠ .idle ∨ (p.cmdValid = false ∧ q.cmdValid = false) ∨
      (p.cmdValid = q.cmdValid ∧ p.cmdOp = q.cmdOp ∧ p.cmdLen = q.cmdLen ∧ p.cmdData = q.cmdData)) →
    step { s with inputs := p :: later } = step { s with inputs := q :: later }

/-! ## Encoding -/

/-- The opcode map of spec/30_encoding.md rule R62, on every command word: all four values of the field are
assigned, and a command that starts a run starts the phase with its own opcode as code. -/
def Obligations.OpcodeFieldSelectsCommand : Prop :=
  (∀ cmd : CmdWord,
    decode cmd =
      if cmd.extractLsb' 262 2 = 0b00#2 then
        .rsvd (cmd.extractLsb' 256 6) (cmd.extractLsb' 0 256)
      else if cmd.extractLsb' 262 2 = 0b01#2 then
        .kexp (cmd.extractLsb' 256 6) (cmd.extractLsb' 0 256)
      else if cmd.extractLsb' 262 2 = 0b10#2 then
        .enc (cmd.extractLsb' 256 6) (cmd.extractLsb' 0 256)
      else .dec (cmd.extractLsb' 256 6) (cmd.extractLsb' 0 256)) ∧
  (∀ (i : Instr) (s t : State), acceptError i s = none → exec i s = .next t → t.phase.code = i.opcode)

/-- Five command words written out from the spec (spec/30_encoding.md rules R66, R67; spec/95_test_vectors.md
V18). -/
def Obligations.SampleWordsDecode : Prop :=
  decode 0x50000102030405060708090a0b0c0d0e0f00000000000000000000000000000000#264 =
      .kexp 16#6 0x000102030405060708090a0b0c0d0e0f00000000000000000000000000000000#256 ∧
    decode 0x9000112233445566778899aabbccddeeffa5a5a5a5a5a5a5a5a5a5a5a5a5a5a5a5#264 =
      .enc 16#6 0x00112233445566778899aabbccddeeffa5a5a5a5a5a5a5a5a5a5a5a5a5a5a5a5#256 ∧
    decode 0xd069c4e0d86a7b0430d8cdb78070b4c55a00000000000000000000000000000000#264 =
      .dec 16#6 0x69c4e0d86a7b0430d8cdb78070b4c55a00000000000000000000000000000000#256 ∧
    decode 0x3fffffffffffffffffffffffffffffffffffffffffffffffffffffffffffffffff#264 =
      .rsvd 63#6 0xffffffffffffffffffffffffffffffffffffffffffffffffffffffffffffffff#256 ∧
    decode 0x540000000000000000000000000000000000000000000000000000000000000000#264 = .kexp 20#6 0#256

/-- Decoding the encoding of any command, legal or not, gives it back with every bit of its fields
(spec/30_encoding.md rules R61, R62). -/
def Obligations.DecodeOfEncodeIsIdentity : Prop := ∀ i : Instr, decode (encode i) = i

/-- Each of the 2^264 command words has exactly one meaning: it is the encoding of what it decodes to, and of
nothing else (spec/30_encoding.md rule R65). -/
def Obligations.EveryWordEncodesOneCommand : Prop :=
  ∀ cmd : CmdWord, encode (decode cmd) = cmd ∧ ∀ i, encode i = cmd → i = decode cmd

/-- Data lanes beyond the stated length, and every data lane of a command that fails its checks or is
reserved, have no effect (spec/30_encoding.md rule R64). -/
def Obligations.IgnoredDataLanesHaveNoEffect : Prop :=
  ∀ (len : BitVec 6) (d e : BitVec 256) (s : State),
    ((∀ i, i < len.toNat → i < 32 → dataByte d i = dataByte e i) →
      exec (.kexp len d) s = exec (.kexp len e) s) ∧
    ((∀ i, i < 16 → dataByte d i = dataByte e i) →
      exec (.enc len d) s = exec (.enc len e) s ∧ exec (.dec len d) s = exec (.dec len e) s) ∧
    (len.toNat ∉ [16, 24, 32] → exec (.kexp len d) s = exec (.kexp len e) s) ∧
    (len.toNat ≠ 16 ∨ s.ksValid = false →
      exec (.enc len d) s = exec (.enc len e) s ∧ exec (.dec len d) s = exec (.dec len e) s) ∧
    exec (.rsvd len d) s = exec (.rsvd len e) s

/-! ## Errors -/

/-- `RSVD`, the command with `cmd_op = 00`, raises `IllegalCommand`, code 3, whatever its length and data;
nothing but the response changes (spec/60_exceptions.md rule R163; what raising writes is rule R166). -/
def Obligations.RsvdRaisesIllegalCommand : Prop :=
  (∀ (len : BitVec 6) (data : BitVec 256) (s : State),
    exec (.rsvd len data) s = .next { s with rspValid := true, rspErr := 3, rspData := 0 }) ∧
  (∀ (p : Pins) (s : State), p.cmdOp = 0b00#2 →
    exec p.command s = .next { s with rspValid := true, rspErr := 3, rspData := 0 })

/-- `KEXP` with a length other than 16, 24 or 32 raises `InvalidKeyLength`, code 1, and nothing but the
response changes; no other command raises it (spec/60_exceptions.md rule R161). -/
def Obligations.WrongKeyLengthRaisesError : Prop :=
  (∀ (len : BitVec 6) (data : BitVec 256) (s : State), len.toNat ∉ [16, 24, 32] →
    exec (.kexp len data) s = .next { s with rspValid := true, rspErr := 1, rspData := 0 }) ∧
  (∀ (i : Instr) (s t : State), exec i s = .next t → t.rspErr = 1 →
    ∃ len data, i = .kexp len data ∧ len.toNat ∉ [16, 24, 32])

/-- `ENC` and `DEC` with a length other than 16 raise `InvalidBlockLength`, code 2, and nothing but the
response changes; `KEXP` does not raise it (spec/60_exceptions.md rule R162). -/
def Obligations.WrongBlockLengthRaisesError : Prop :=
  (∀ (len : BitVec 6) (data : BitVec 256) (s : State), len.toNat ≠ 16 →
    exec (.enc len data) s = .next { s with rspValid := true, rspErr := 2, rspData := 0 } ∧
      exec (.dec len data) s = .next { s with rspValid := true, rspErr := 2, rspData := 0 }) ∧
  (∀ (len : BitVec 6) (data : BitVec 256) (s t : State), exec (.kexp len data) s = .next t → t.rspErr ≠ 2)

/-- `ENC` and `DEC` of 16 bytes with `KS_VALID = 0` raise `NoKeySchedule`, code 4, and nothing but the
response changes (spec/60_exceptions.md rule R164). -/
def Obligations.BlockWithoutScheduleRaisesError : Prop :=
  ∀ (len : BitVec 6) (data : BitVec 256) (s : State), len.toNat = 16 → s.ksValid = false →
    exec (.enc len data) s = .next { s with rspValid := true, rspErr := 4, rspData := 0 } ∧
      exec (.dec len data) s = .next { s with rspValid := true, rspErr := 4, rspData := 0 }

/-- Every command answers a next state whose response reports the FIRST failing check, opcode then length then
schedule, or no response where none fails; at an edge with `rst = 1` no command is accepted
(spec/60_exceptions.md rule R165). -/
def Obligations.AcceptReportsFirstError : Prop :=
  (∀ (i : Instr) (s : State), ∃ t, exec i s = .next t ∧ t.rspData = 0 ∧
    (t.rspValid, t.rspErr) =
      match i with
      | .rsvd _ _ => (true, 3#3)
      | .kexp len _ => if len.toNat ∉ [16, 24, 32] then (true, 1#3) else (false, 0#3)
      | .enc len _ =>
        if len.toNat ≠ 16 then (true, 2#3) else if s.ksValid then (false, 0#3) else (true, 4#3)
      | .dec len _ =>
        if len.toNat ≠ 16 then (true, 2#3) else if s.ksValid then (false, 0#3) else (true, 4#3)) ∧
  (∀ (s : State) (p : Pins), p.rst = true → edge p s = .next (resetStep s))

/-- Raising an error writes the response registers and nothing else, and right after the accept edge the ports
show the error with the core ready for the next command and the schedule as it was (spec/60_exceptions.md rule
R166). -/
def Obligations.ErrorReplacesOnlyResponse : Prop :=
  ∀ (i : Instr) (s : State) (e : Err), s.presents i → acceptError i s = some e →
    ∃ t, step s = .next t ∧
      t = { s with rspValid := true, rspErr := e.code, rspData := 0, inputs := t.inputs } ∧
      ∀ j, ports t j = { ports s j with cmdReady := true, busy := false, rspValid := true, rspErr := e.code,
                                         rspData := 0 }

/-! ## The accept steps and the running steps

These are the steps of the reference sequencer, which the model follows by choice (log entry 1). -/

/-- `KEXP` of 16, 24 or 32 bytes is accepted (`KexpAccept`, spec/43_key_expand.md rule R129; log entries 1 and
4): the key goes to the first `Nk` words, `NK` and `KIDX` become `Nk`, the schedule is not valid, the response
is cleared. Every other byte of `W`, `RND`, `S` and the host's samples are unchanged. -/
def Obligations.KexpAcceptStoresKey : Prop :=
  ∀ (len : BitVec 6) (data : BitVec 256) (s : State), len.toNat ∈ [16, 24, 32] →
    ∃ t, exec (.kexp len data) s = .next t ∧ t.nk.toNat = len.toNat / 4 ∧ t.ksValid = false ∧
      t.kidx.toNat = len.toNat / 4 ∧ t.phase = .kexpRun ∧
      t.rspValid = false ∧ t.rspErr = 0 ∧ t.rspData = 0 ∧
      (∀ j, j < len.toNat / 4 →
        memRead t.w j =
          ⟨dataByte data (4 * j), dataByte data (4 * j + 1), dataByte data (4 * j + 2),
            dataByte data (4 * j + 3)⟩) ∧
      (∀ a, len.toNat ≤ a → Memory.read t.w a = Memory.read s.w a) ∧
      t.rnd = s.rnd ∧ t.s = s.s ∧ t.inputs = s.inputs

/-- `ENC` and `DEC` of 16 bytes with a valid schedule are accepted (`EncAccept`, `DecAccept`,
spec/44_encrypt_core.md rule R143, spec/45_decrypt_core.md rule R153; log entry 1): the block is loaded into
`S`, byte `4c + r` into `S[c][r]`, `RND` is 0, the response is cleared; `NK`, `KS_VALID`, `W`, `KIDX` are
unchanged. -/
def Obligations.BlockAcceptLoadsState : Prop :=
  ∀ (len : BitVec 6) (data : BitVec 256) (s : State), len.toNat = 16 → s.ksValid = true →
    ∃ g : Grid, (∀ c r : Fin 4, g.get c r = dataByte data (4 * c.val + r.val)) ∧
      exec (.enc len data) s =
        .next { s with s := g, rnd := 0, rspValid := false, rspErr := 0, rspData := 0, phase := .encRun } ∧
      exec (.dec len data) s =
        .next { s with s := g, rnd := 0, rspValid := false, rspErr := 0, rspData := 0, phase := .decRun }

/-- A step of `KEXP_RUN` (`KexpStep`, spec/43_key_expand.md rule R129; log entries 1, 2, 4): below `NW` it
writes the one word `W[KIDX]` by the recurrence and counts; at `NW` it clears `W[NW..59]`, makes the schedule
valid and answers. Every other byte and register is unchanged. -/
def Obligations.KexpStepFollowsRecurrence : Prop :=
  ∀ s : State, s.phase = .kexpRun → s.pins.rst = false → s.keySize → s.nk.toNat ≤ s.kidx.toNat →
    (s.kidx.toNat < s.nw →
      ∃ t, step s = .next t ∧
        memRead t.w s.kidx.toNat =
          Word.xor (memRead s.w (s.kidx.toNat - s.nk.toNat))
            (keyTemp s.kidx.toNat s.nk.toNat (memRead s.w (s.kidx.toNat - 1))) ∧
        (∀ a, a / 4 ≠ s.kidx.toNat → Memory.read t.w a = Memory.read s.w a) ∧
        t.kidx.toNat = s.kidx.toNat + 1 ∧
        t = { s with w := t.w, kidx := t.kidx, inputs := s.inputs.tail }) ∧
    (s.kidx.toNat = s.nw →
      ∃ t, step s = .next t ∧
        (∀ j, s.nw ≤ j → j < 60 → memRead t.w j = Word.zero) ∧
        (∀ a, a < 4 * s.nw ∨ 240 ≤ a → Memory.read t.w a = Memory.read s.w a) ∧
        t = { s with w := t.w, ksValid := true, rspValid := true, rspErr := 0, rspData := 0, kidx := 0,
                     phase := .idle, inputs := s.inputs.tail })

/-- A step of `ENC_RUN` (`EncStep`, spec/44_encrypt_core.md rule R143; log entries 1, 2), by `RND`: the first
round key, one round, or the final round with the answer. `W`, `NK`, `KS_VALID` and `KIDX` are unchanged. -/
def Obligations.EncStepRunsOneRound : Prop :=
  ∀ s : State, s.phase = .encRun → s.pins.rst = false → s.keySize →
    step s =
      if s.rnd.toNat = 0 then
        .next { s with s := addRoundKey s.s (roundKey s.w 0), rnd := 1, inputs := s.inputs.tail }
      else if s.rnd.toNat < s.nr then
        .next { s with s := cipherRound s.s (roundKey s.w s.rnd.toNat), rnd := s.rnd + 1,
                       inputs := s.inputs.tail }
      else
        .next { s with rspData := packBlock (storeState (finalRound s.s (roundKey s.w s.nr))),
                       rspValid := true, rspErr := 0, s := Grid.zero, rnd := 0, phase := .idle,
                       inputs := s.inputs.tail }

/-- A step of `DEC_RUN` (`DecStep`, spec/45_decrypt_core.md rule R153; log entries 1, 2), by `RND`: the last
round key, one inverse round with round key `NR − RND`, or the final inverse step with the answer. `W`, `NK`,
`KS_VALID` and `KIDX` are unchanged. -/
def Obligations.DecStepRunsOneInverseRound : Prop :=
  ∀ s : State, s.phase = .decRun → s.pins.rst = false → s.keySize →
    step s =
      if s.rnd.toNat = 0 then
        .next { s with s := addRoundKey s.s (roundKey s.w s.nr), rnd := 1, inputs := s.inputs.tail }
      else if s.rnd.toNat < s.nr then
        .next { s with s := invRound s.s (roundKey s.w (s.nr - s.rnd.toNat)), rnd := s.rnd + 1,
                       inputs := s.inputs.tail }
      else
        .next { s with rspData := packBlock (storeState (invFinalRound s.s (roundKey s.w 0))),
                       rspValid := true, rspErr := 0, s := Grid.zero, rnd := 0, phase := .idle,
                       inputs := s.inputs.tail }

/-! ## The commands from idle state to idle state -/

/-- `KEXP` (spec/43_key_expand.md rule R128). A wrong length changes only the response. Otherwise, after some
fixed number `n ≥ 1` of edges without a reset, the state is the one the rule gives: `NK`, all 60 words of `W`,
`KS_VALID`, the response and the cleared hidden registers; in between the core is busy and shows neither a
response nor a schedule. No claim is made about the value of `n` (rule R5). A reset step during the run ends
it with no response and no schedule. -/
def Obligations.KexpEndsInExpandedSchedule : Prop :=
  (∀ (len : BitVec 6) (data : BitVec 256) (s : State), len.toNat ∉ [16, 24, 32] →
    exec (.kexp len data) s = .next { s with rspValid := true, rspErr := 1, rspData := 0 }) ∧
  (∀ s : State, s.phase = .kexpRun → s.pins.rst = true →
    ∃ t, step s = .next t ∧ t = { State.reset with inputs := t.inputs }) ∧
  ∀ nk ∈ [4, 6, 8], ∃ n, 1 ≤ n ∧
    ∀ (s : State) (len : BitVec 6) (data : BitVec 256), s.Inv → len.toNat = 4 * nk →
      s.presents (.kexp len data) → s.noReset (n + 1) →
      (∃ t, exec (.kexp len data) s.advance = .next t ∧ step s = .next t) ∧
      (∀ k, k < n → ∃ t, run (k + 1) s = .next t ∧
        ∀ j, (ports t j).busy = true ∧ (ports t j).cmdReady = false ∧ (ports t j).rspValid = false ∧
          (ports t j).ksValid = false ∧ (ports t j).ksWordValid = false ∧ (ports t j).ksWord = 0) ∧
      ∃ t, run (n + 1) s = .next t ∧ t.nk.toNat = nk ∧
        (∀ i, i < 4 * (nk + 7) → memRead t.w i = (expandKey (keyBytes data (4 * nk))).getD i Word.zero) ∧
        (∀ i, 4 * (nk + 7) ≤ i → i < 60 → memRead t.w i = Word.zero) ∧
        t.ksValid = true ∧ t.rspValid = true ∧ t.rspErr = 0 ∧ t.rspData = 0 ∧
        t.phase = .idle ∧ t.rnd = 0 ∧ t.kidx = 0 ∧ t.s = Grid.zero

/-- `ENC` (spec/44_encrypt_core.md rule R142). A wrong length or a missing schedule changes only the response.
Otherwise, after some fixed number `n ≥ 1` of edges without a reset, the state is the one before with
`RSP_DATA` the encrypted block, `RSP_VALID = 1`, `RSP_ERR = 0` and `RND`, `S` cleared; in between the core is
busy, shows no response, and the schedule ports are unchanged. A reset step during the run ends it with no
response; under one schedule an encryption undoes a decryption, a clause the spec infers itself ("`ENC` of the
result of a `DEC` under the same schedule gives back the `DEC`'s input", marked derived from
spec/45_decrypt_core.md rule R151). -/
def Obligations.EncEndsInEncryptedBlock : Prop :=
  (∀ (len : BitVec 6) (data : BitVec 256) (s : State),
    (len.toNat ≠ 16 →
      exec (.enc len data) s = .next { s with rspValid := true, rspErr := 2, rspData := 0 }) ∧
    (len.toNat = 16 → s.ksValid = false →
      exec (.enc len data) s = .next { s with rspValid := true, rspErr := 4, rspData := 0 })) ∧
  (∀ s : State, s.phase = .encRun → s.pins.rst = true →
    ∃ t, step s = .next t ∧ t = { State.reset with inputs := t.inputs }) ∧
  (∀ (schedule : List Word) (nr : Nat) (b : Block), encrypt (decrypt b schedule nr) schedule nr = b) ∧
  ∀ nr ∈ [10, 12, 14], ∃ n, 1 ≤ n ∧
    ∀ (s : State) (len : BitVec 6) (data : BitVec 256), s.keySize → s.nr = nr → s.ksValid = true →
      len.toNat = 16 → s.presents (.enc len data) → s.noReset (n + 1) →
      (∃ t, exec (.enc len data) s.advance = .next t ∧ step s = .next t) ∧
      (∀ k, k < n → ∃ t, run (k + 1) s = .next t ∧
        ∀ j, ports t j = { ports s j with busy := true, cmdReady := false, rspValid := false, rspErr := 0,
                                           rspData := 0 }) ∧
      ∃ t, run (n + 1) s = .next t ∧
        t = { s with
          rspData := packBlock (encrypt (dataBlock data) (scheduleWords s.w s.nw) nr)
          rspValid := true
          rspErr := 0
          phase := .idle
          rnd := 0
          s := Grid.zero
          inputs := t.inputs }

/-- `DEC` (spec/45_decrypt_core.md rule R152): as `ENC`, with the decrypted block; under one schedule a
decryption undoes an encryption. -/
def Obligations.DecEndsInDecryptedBlock : Prop :=
  (∀ (len : BitVec 6) (data : BitVec 256) (s : State),
    (len.toNat ≠ 16 →
      exec (.dec len data) s = .next { s with rspValid := true, rspErr := 2, rspData := 0 }) ∧
    (len.toNat = 16 → s.ksValid = false →
      exec (.dec len data) s = .next { s with rspValid := true, rspErr := 4, rspData := 0 })) ∧
  (∀ s : State, s.phase = .decRun → s.pins.rst = true →
    ∃ t, step s = .next t ∧ t = { State.reset with inputs := t.inputs }) ∧
  (∀ (schedule : List Word) (nr : Nat) (b : Block), decrypt (encrypt b schedule nr) schedule nr = b) ∧
  ∀ nr ∈ [10, 12, 14], ∃ n, 1 ≤ n ∧
    ∀ (s : State) (len : BitVec 6) (data : BitVec 256), s.keySize → s.nr = nr → s.ksValid = true →
      len.toNat = 16 → s.presents (.dec len data) → s.noReset (n + 1) →
      (∃ t, exec (.dec len data) s.advance = .next t ∧ step s = .next t) ∧
      (∀ k, k < n → ∃ t, run (k + 1) s = .next t ∧
        ∀ j, ports t j = { ports s j with busy := true, cmdReady := false, rspValid := false, rspErr := 0,
                                           rspData := 0 }) ∧
      ∃ t, run (n + 1) s = .next t ∧
        t = { s with
          rspData := packBlock (decrypt (dataBlock data) (scheduleWords s.w s.nw) nr)
          rspValid := true
          rspErr := 0
          phase := .idle
          rnd := 0
          s := Grid.zero
          inputs := t.inputs }

/-- Nothing of the old state survives a successful `KEXP`: from any two legal idle states the same key leads
to the same state in every register, whatever the ignored lanes hold (spec/43_key_expand.md rule R128,
spec/10_state.md rule R15). -/
def Obligations.KexpForgetsOldState : Prop :=
  ∀ nk ∈ [4, 6, 8], ∃ n, 1 ≤ n ∧
    ∀ (s t : State) (len : BitVec 6) (d e : BitVec 256), s.Inv → t.Inv → len.toNat = 4 * nk →
      (∀ i, i < 4 * nk → dataByte d i = dataByte e i) →
      s.presents (.kexp len d) → t.presents (.kexp len e) → s.noReset (n + 1) → t.noReset (n + 1) →
      ∃ s' t', run (n + 1) s = .next s' ∧ run (n + 1) t = .next t' ∧ t' = { s' with inputs := t'.inputs }

/-! ## The atomic view and latency -/

/-- The reference sequencer refines the atomic view (spec/10_state.md rule R25; log entries 1, 13): from a
legal idle state that presents a command, the run of its reference latency without a reset ends in the one
state rules R128, R142, R152, R166 give it. -/
def Obligations.CommandRunReachesAtomicResult : Prop :=
  ∀ (s : State) (i : Instr), s.Inv → s.presents i →
    s.noReset (commandLatency Config.Latency.reference i s + 1) →
    run (commandLatency Config.Latency.reference i s + 1) s =
      .next ((commandResult i s).afterEdges (commandLatency Config.Latency.reference i s + 1))

/-- Whatever the latencies are, the admissible ones among them, the atomic core ends in the registers in which
the run of the sequencer ends (spec/00_scope.md rule R5, spec/10_state.md rule R25; the sequencer is log entry
1, the atomic core log entry 13, the samples used up log entry 2). -/
def Obligations.AnyLatencyGivesSameResult : Prop :=
  ∀ (l : Config.Latency) (s : State) (i : Instr), s.Inv → s.presents i →
    s.noReset (commandLatency l i s + 1) → s.noReset (commandLatency Config.Latency.reference i s + 1) →
    ∃ t, run (commandLatency Config.Latency.reference i s + 1) s = .next t ∧
      t.phase = .idle ∧ t.rspValid = true ∧
      atomicRun l (commandLatency l i s + 1) ⟨s, none⟩ =
        ⟨{ t with inputs := s.inputs.drop (commandLatency l i s + 1) }, none⟩

/-- A host cannot tell the reference sequencer from the atomic core of the same latencies: from a legal idle
state, whatever the host drives, resets included, the ports are the same after every number of edges
(spec/10_state.md rule R25; log entries 1, 13). -/
def Obligations.PortsCannotTellAtomicFromSequencer : Prop :=
  ∀ (s : State) (n : Nat), s.Inv → s.phase = .idle →
    ∃ t, run n s = .next t ∧
      ∀ j, ports t j = ports (atomicRun Config.Latency.reference n ⟨s, none⟩).regs j

/-- The reference timing table (spec/70_reset_and_hazards.md rule R190; log entry 1): 41, 47, 53 edges for
`KEXP`, 11, 13, 15 for `ENC` and `DEC`, none for an error, which the accept edge itself answers; each is
admissible under rule R5. -/
def Obligations.ReferenceTimingTable : Prop :=
  Config.Latency.reference.admissible ∧
    [4, 6, 8].map Config.Latency.reference.kexp = [41, 47, 53] ∧
    [10, 12, 14].map Config.Latency.reference.enc = [11, 13, 15] ∧
    [10, 12, 14].map Config.Latency.reference.dec = [11, 13, 15] ∧
    ∀ (l : Config.Latency) (i : Instr) (s : State) (e : Err), acceptError i s = some e →
      commandLatency l i s = 0 ∧ ∃ t, exec i s = .next t ∧ t.rspValid = true

/-! ## Invariants and whole-machine rules -/

/-- The state invariant, whose idle part is spec/10_state.md rule R27, is kept by every step. Its memory part
is the canonical form of log entry 4. -/
def Obligations.StepKeepsStateInvariant : Prop := ∀ s t : State, s.Inv → step s = .next t → t.Inv

/-- The reset state satisfies the state invariant. -/
def Obligations.ResetSatisfiesInvariant : Prop := State.reset.Inv

/-- From a state that satisfies the invariant no step stops: every access lies in its space, and no state is
stuck (spec/20_memory.md rule R46, spec/10_state.md rule R22). -/
def Obligations.LegalStatesNeverStop : Prop := ∀ s : State, s.Inv → ∃ t, step s = .next t

/-- Every command ends: from a legal running state, within 53 edges without a reset, the core is idle with a
response of no error (spec/10_state.md rule R22; the bound is that of log entry 1). -/
def Obligations.RunningCommandEnds : Prop :=
  ∀ s : State, s.Inv → s.phase ≠ .idle →
    ∃ n, 1 ≤ n ∧ n ≤ 53 ∧
      (s.noReset n → ∃ t, run n s = .next t ∧ t.phase = .idle ∧ t.rspValid = true ∧ t.rspErr = 0)

/-- `W`, `NK` and `KS_VALID` are written only by reset and by a `KEXP`: its accept step without an error and
its run; no `ENC`, no `DEC`, no error and no idle edge changes a byte of them (spec/10_state.md rules R13,
R15, R17). -/
def Obligations.OnlyKexpAndResetWriteSchedule : Prop :=
  ∀ s t : State, step s = .next t →
    s.pins.rst = true ∨ s.phase = .kexpRun ∨
      (s.phase = .idle ∧ s.pins.cmdValid = true ∧
        ∃ len data, s.pins.command = .kexp len data ∧ len.toNat ∈ [16, 24, 32]) ∨
      ((∀ a, Memory.read t.w a = Memory.read s.w a) ∧ t.w = s.w ∧ t.nk = s.nk ∧ t.ksValid = s.ksValid)

/-- The codes of `PHASE` and its transitions (spec/10_state.md rule R19): it leaves `IDLE` only at an accept
edge of a command that raises no error, for the phase with that command's opcode; a running phase is kept
until its last step or a reset, which lead to `IDLE`. Which step is the last one is that of the reference
sequencer (R129, R143, R153; log entry 1), not of rule R19. -/
def Obligations.PhaseTransitions : Prop :=
  (Phase.idle.code = 0b00#2 ∧ Phase.kexpRun.code = 0b01#2 ∧ Phase.encRun.code = 0b10#2 ∧
    Phase.decRun.code = 0b11#2) ∧
  ∀ s t : State, step s = .next t →
    if s.pins.rst then t.phase = .idle
    else
      match s.phase with
      | .idle =>
        if s.pins.cmdValid = true ∧ acceptError s.pins.command s = none then
          t.phase ≠ .idle ∧ t.phase.code = s.pins.cmdOp
        else t.phase = .idle
      | .kexpRun => t.phase = if s.kidx.toNat < s.nw then .kexpRun else .idle
      | .encRun => t.phase = if s.rnd.toNat = 0 ∨ s.rnd.toNat < s.nr then .encRun else .idle
      | .decRun => t.phase = if s.rnd.toNat = 0 ∨ s.rnd.toNat < s.nr then .decRun else .idle

/-- When the response registers change and to what, and that they change at no other time (spec/10_state.md
rule R18). That the output block is formed from `S` at the last step, by the final round or its inverse, is
the reference sequencer (R143, R153; log entry 1), not rule R18. -/
def Obligations.ResponseRegistersChangeOnlyAsTabled : Prop :=
  (∀ e : Err, 1 ≤ e.code.toNat ∧ e.code.toNat ≤ 4) ∧
  ∀ s t : State, step s = .next t →
    (t.rspValid, t.rspErr, t.rspData) =
      if s.pins.rst then (false, 0#3, 0#128)
      else
        match s.phase with
        | .idle =>
          if s.pins.cmdValid then
            match acceptError s.pins.command s with
            | none => (false, 0#3, 0#128)
            | some e => (true, e.code, 0#128)
          else (s.rspValid, s.rspErr, s.rspData)
        | .kexpRun => if t.phase = .idle then (true, 0#3, 0#128) else (s.rspValid, s.rspErr, s.rspData)
        | .encRun =>
          if t.phase = .idle then
            (true, 0#3, packBlock (storeState (finalRound s.s (roundKey s.w s.nr))))
          else (s.rspValid, s.rspErr, s.rspData)
        | .decRun =>
          if t.phase = .idle then
            (true, 0#3, packBlock (storeState (invFinalRound s.s (roundKey s.w 0))))
          else (s.rspValid, s.rspErr, s.rspData)

/-- What the counters and registers can hold in a legal state (spec/10_state.md rules R13, R18, R20, R21;
spec/60_exceptions.md rule R160). -/
def Obligations.RegistersStayInRange : Prop :=
  ∀ s : State, s.Inv →
    s.nk.toNat ∈ [0, 4, 6, 8] ∧ s.rspErr.toNat ≤ 4 ∧
      (s.phase = .idle ∨ s.phase = .kexpRun → s.rnd = 0) ∧
      (s.phase = .encRun ∨ s.phase = .decRun → s.rnd.toNat ≤ s.nr ∧ s.nr ≤ 14) ∧
      (s.phase ≠ .kexpRun → s.kidx = 0) ∧
      (s.phase = .kexpRun → s.nk.toNat ≤ s.kidx.toNat ∧ s.kidx.toNat ≤ s.nw ∧ s.nw ≤ 60)

/-! ## The ports -/

/-- The output ports (spec/10_state.md rule R24): the status ports, and on the read port a word of the
schedule where there is one and zero, not valid, everywhere else, the indices 60 to 63 among them; during a
`KEXP` it shows no word. -/
def Obligations.OutputPortsShowRegisters : Prop :=
  ∀ (s : State) (j : BitVec 6), s.nk = 0 ∨ s.keySize →
    ((ports s j).cmdReady = true ↔ s.phase = .idle) ∧ ((ports s j).busy = true ↔ s.phase ≠ .idle) ∧
    (ports s j).rspValid = s.rspValid ∧ (ports s j).rspErr = s.rspErr ∧ (ports s j).rspData = s.rspData ∧
    (ports s j).ksValid = s.ksValid ∧ (ports s j).ksNk = s.nk ∧
    (ports s j).ksNr.toNat = (if s.nk = 0 then 0 else s.nk.toNat + 6) ∧
    (s.ksValid = true → j.toNat < s.nw →
      (ports s j).ksWordValid = true ∧ (ports s j).ksWord = packWord (memRead s.w j.toNat)) ∧
    (s.ksValid = false ∨ s.nw ≤ j.toNat →
      (ports s j).ksWordValid = false ∧ (ports s j).ksWord = 0x00000000#32) ∧
    (60 ≤ j.toNat → (ports s j).ksWordValid = false) ∧
    (s.Inv → s.phase = .kexpRun → (ports s j).ksWordValid = false)

/-- What the ports show while a command runs (spec/10_state.md rule R25): busy and no response; during a
`KEXP` no schedule; during `ENC` and `DEC` the schedule, and their steps leave the schedule ports as they are.
-/ def Obligations.RunningCommandIsHidden : Prop := ∀ (s : State) (j : BitVec 6), s.Inv → s.phase ≠ .idle →
(ports s j).cmdReady = false ∧ (ports s j).busy = true ∧ (ports s j).rspValid = false ∧ (ports s j).rspErr = 0
∧ (ports s j).rspData = 0 ∧ (s.phase = .kexpRun → (ports s j).ksValid = false ∧ (ports s j).ksWordValid =
false ∧ (ports s j).ksWord = 0) ∧ (s.phase ≠ .kexpRun → s.pins.rst = false → ∀ t, step s = .next t → (ports t
j).ksValid = (ports s j).ksValid ∧ (ports t j).ksNk = (ports s j).ksNk ∧ (ports t j).ksNr = (ports s j).ksNr ∧
(ports t j).ksWordValid = (ports s j).ksWordValid ∧ (ports t j).ksWord = (ports s j).ksWord) /-- The bus
lanes: byte `i` of the response block in bits [127 − 8i : 120 − 8i] (spec/20_memory.md rule R41), byte `k` of
a word in bits [31 − 8k : 24 − 8k] (spec/10_state.md rule R11). -/
def Obligations.BusLanesAreBigEndian : Prop :=
  (∀ (b : Block) (i : Fin 16), (packBlock b).extractLsb' (120 - 8 * i.val) 8 = b i) ∧
    (∀ (w : Word) (k : Fin 4), (packWord w).extractLsb' (24 - 8 * k.val) 8 = w.get k)

/-- The mixed-width view (spec/20_memory.md rule R48): the first `Nk` words of the schedule are the key bus
cut into 32-bit pieces from the top. -/
def Obligations.KeyBusCutIntoWords : Prop :=
  ∀ (len : BitVec 6) (data : BitVec 256), len.toNat ∈ [16, 24, 32] → ∀ j, j < len.toNat / 4 →
    packWord ((expandKey (keyBytes data len.toNat)).getD j Word.zero) = data.extractLsb' (224 - 32 * j) 32

/-- `LoadState` and `StoreState` are inverse to each other (spec/20_memory.md rule R43). -/
def Obligations.LoadAndStoreStateAreInverse : Prop :=
  (∀ b : Block, storeState (loadState b) = b) ∧ (∀ s : Grid, loadState (storeState s) = s)

/-! ## The arithmetic and the tables -/

/-- `xtime` (spec/40_gf_mult_8bit.md rule R81): the 8-bit form of it, the corner cases, and that it is a
permutation of the bytes. -/
def Obligations.XtimeDoublesInField : Prop :=
  (∀ a : Byte, xtime a = (a <<< 1) ^^^ (if a.getLsbD 7 then 0x1b#8 else 0x00#8)) ∧
    xtime 0x00 = 0x00 ∧ xtime 0x7f = 0xfe ∧ xtime 0x80 = 0x1b ∧ xtime 0xff = 0xe5 ∧ xtime 0x8d = 0x01 ∧
    (∀ a b : Byte, xtime a = xtime b → a = b) ∧ (∀ b : Byte, ∃ a, xtime a = b)

/-- The four laws the document requires of `mulPoly` (spec/40_gf_mult_8bit.md rule R83): commutative,
`mulPoly(a,0)=0`, `mulPoly(a,1)=a`, distributive over XOR. -/
def Obligations.MulPolyRequiredLaws : Prop :=
  (∀ a b : Byte, mulPoly a b = mulPoly b a) ∧ (∀ a : Byte, mulPoly a 0x00 = 0x00) ∧
    (∀ a : Byte, mulPoly a 0x01 = a) ∧
    ∀ a b c : Byte, mulPoly a (b ^^^ c) = mulPoly a b ^^^ mulPoly a c

/-- `mulPoly` is the multiplication of a field: associative, and every non-zero byte has exactly one inverse.
The spec infers this itself: "It is also associative, and every non-zero Byte has exactly one inverse under
it" (spec/40_gf_mult_8bit.md rule R83, last sentence, marked derived). -/
def Obligations.MulPolyAssociativeWithInverses : Prop :=
  (∀ a b c : Byte, mulPoly (mulPoly a b) c = mulPoly a (mulPoly b c)) ∧
    ∀ a : Byte, a ≠ 0x00 → ∃ b, mulPoly a b = 0x01 ∧ ∀ c, mulPoly a c = 0x01 → c = b

/-- `mulPoly` is the polynomial product reduced modulo `x^8 + x^4 + x^3 + x + 1` (spec/40_gf_mult_8bit.md rule
R84). -/
def Obligations.MulPolyIsProductModuloPolynomial : Prop :=
  ∀ a b : Byte, mulPoly a b = polyRemainder (polyProduct a b)

/-- The constant multipliers of the two matrices by doublings (spec/40_gf_mult_8bit.md rule R85). -/
def Obligations.ConstantMultipliersByDoubling : Prop :=
  ∀ v : Byte,
    mulPoly 0x01 v = v ∧ mulPoly 0x02 v = xtime v ∧ mulPoly 0x03 v = xtime v ^^^ v ∧
    mulPoly 0x09 v = xtime (xtime (xtime v)) ^^^ v ∧
    mulPoly 0x0b v = xtime (xtime (xtime v)) ^^^ xtime v ^^^ v ∧
    mulPoly 0x0d v = xtime (xtime (xtime v)) ^^^ xtime (xtime v) ^^^ v ∧
    mulPoly 0x0e v = xtime (xtime (xtime v)) ^^^ xtime (xtime v) ^^^ xtime v

/-- `SBOX` and `INVSBOX` are inverse to each other on all 256 bytes (spec/41_constant_tables.md rule R91). -/
def Obligations.InverseSboxUndoesSbox : Prop :=
  (∀ x : Byte, invSbox (sbox x) = x) ∧ (∀ y : Byte, sbox (invSbox y) = y)

/-- The S-box table is the field inverse followed by the affine step (spec/41_constant_tables.md rule R94,
which the spec supplies from general knowledge; log entry 10). -/
def Obligations.SboxIsAffineOfInverse : Prop :=
  sbox 0x00 = sboxAffine 0x00 ∧
    ∀ x b : Byte, mulPoly x b = 0x01 → sbox x = sboxAffine b

/-- The eleven round constants (spec/41_constant_tables.md rule R92), as 32-bit words, and the doubling they
come from. -/
def Obligations.RoundConstantsByDoubling : Prop :=
  ((List.range 11).map fun k => packWord (rcon k)) =
      [0x00000000#32, 0x01000000#32, 0x02000000#32, 0x04000000#32, 0x08000000#32, 0x10000000#32,
        0x20000000#32, 0x40000000#32, 0x80000000#32, 0x1b000000#32, 0x36000000#32] ∧
    rcon 0 = Word.zero ∧ rcon 1 = ⟨0x01, 0x00, 0x00, 0x00⟩ ∧
    ∀ k, 1 ≤ k → k < 10 → rcon (k + 1) = ⟨xtime (rcon k).a0, 0x00, 0x00, 0x00⟩

/-! ## The round transformations -/

/-- `ShiftRows` and `InvShiftRows` move the block bytes by the index tables `P` and `Q` and undo each other
(spec/42_cipher_round.md rules R102, R103). -/
def Obligations.ShiftRowsPermutesBlock : Prop :=
  (∀ (b : Block) (i : Fin 16),
    storeState (shiftRows (loadState b)) i =
        b (([0, 5, 10, 15, 4, 9, 14, 3, 8, 13, 2, 7, 12, 1, 6, 11] : List (Fin 16)).getD i.val 0) ∧
      storeState (invShiftRows (loadState b)) i =
        b (([0, 13, 10, 7, 4, 1, 14, 11, 8, 5, 2, 15, 12, 9, 6, 3] : List (Fin 16)).getD i.val 0)) ∧
  (∀ s : Grid, invShiftRows (shiftRows s) = s ∧ shiftRows (invShiftRows s) = s)

/-- `MixColumns` and `InvMixColumns` on each column, written out (spec/42_cipher_round.md rules R104, R105);
they undo each other, and a column of four equal bytes is unchanged by both. -/
def Obligations.InvMixColumnsUndoesMixColumns : Prop :=
  (∀ (s : Grid) (c : Fin 4) (a0 a1 a2 a3 : Byte), s.col c = ⟨a0, a1, a2, a3⟩ →
    (mixColumns s).col c =
      ⟨mulPoly 0x02 a0 ^^^ mulPoly 0x03 a1 ^^^ a2 ^^^ a3,
        a0 ^^^ mulPoly 0x02 a1 ^^^ mulPoly 0x03 a2 ^^^ a3,
        a0 ^^^ a1 ^^^ mulPoly 0x02 a2 ^^^ mulPoly 0x03 a3,
        mulPoly 0x03 a0 ^^^ a1 ^^^ a2 ^^^ mulPoly 0x02 a3⟩ ∧
    (invMixColumns s).col c =
      ⟨mulPoly 0x0e a0 ^^^ mulPoly 0x0b a1 ^^^ mulPoly 0x0d a2 ^^^ mulPoly 0x09 a3,
        mulPoly 0x09 a0 ^^^ mulPoly 0x0e a1 ^^^ mulPoly 0x0b a2 ^^^ mulPoly 0x0d a3,
        mulPoly 0x0d a0 ^^^ mulPoly 0x09 a1 ^^^ mulPoly 0x0e a2 ^^^ mulPoly 0x0b a3,
        mulPoly 0x0b a0 ^^^ mulPoly 0x0d a1 ^^^ mulPoly 0x09 a2 ^^^ mulPoly 0x0e a3⟩) ∧
  (∀ s : Grid, invMixColumns (mixColumns s) = s ∧ mixColumns (invMixColumns s) = s) ∧
    ∀ (s : Grid) (c : Fin 4) (v : Byte), s.col c = ⟨v, v, v, v⟩ →
      (mixColumns s).col c = ⟨v, v, v, v⟩ ∧ (invMixColumns s).col c = ⟨v, v, v, v⟩

/-- `AddRoundKey`, `SubBytes` and `InvSubBytes` on each byte lane, and the round key read from `W`
(spec/42_cipher_round.md rules R100, R101, R106, spec/10_state.md rule R16). `AddRoundKey` is self-inverse,
and a round key of zeros leaves the grid unchanged; `InvSubBytes` undoes `SubBytes` and the other way round.
-/
def Obligations.ByteLaneTransformationsUndone : Prop :=
  (∀ (s : Grid) (rk : RoundKey) (c r : Fin 4),
    (addRoundKey s rk).get c r = s.get c r ^^^ (rk c).get r ∧
      (subBytes s).get c r = sbox (s.get c r) ∧ (invSubBytes s).get c r = invSbox (s.get c r)) ∧
    (∀ (m : Memory) (r : Nat) (c : Fin 4), roundKey m r c = memRead m (4 * r + c.val)) ∧
    (∀ (s : Grid) (rk : RoundKey), addRoundKey (addRoundKey s rk) rk = s) ∧
    (∀ s : Grid, addRoundKey s (fun _ => Word.zero) = s) ∧
    (∀ s : Grid, invSubBytes (subBytes s) = s ∧ subBytes (invSubBytes s) = s)

/-- The four round composites (spec/42_cipher_round.md rules R107 to R110) and their inverse laws (a), (b),
(c) (rule R113). -/
def Obligations.RoundCompositesAreUndone : Prop :=
  ∀ (s : Grid) (rk : RoundKey),
    cipherRound s rk = addRoundKey (mixColumns (shiftRows (subBytes s))) rk ∧
    finalRound s rk = addRoundKey (shiftRows (subBytes s)) rk ∧
    invRound s rk = invMixColumns (addRoundKey (invSubBytes (invShiftRows s)) rk) ∧
    invFinalRound s rk = addRoundKey (invSubBytes (invShiftRows s)) rk ∧
    invSubBytes (invShiftRows s) = invShiftRows (invSubBytes s) ∧
    subBytes (shiftRows s) = shiftRows (subBytes s) ∧
    invSubBytes (invShiftRows (addRoundKey (finalRound s rk) rk)) = s ∧
    invSubBytes (invShiftRows (invMixColumns (addRoundKey (cipherRound s rk) rk))) = s

/-- The module `aes_cipher_round` on its 128-bit buses (spec/42_cipher_round.md rule R111). -/
def Obligations.CipherRoundModuleOnBuses : Prop :=
  ∀ (s : Grid) (rk : RoundKey),
    aesCipherRound (packBlock (storeState s))
        (packWord (rk 0) ++ packWord (rk 1) ++ packWord (rk 2) ++ packWord (rk 3)) true =
      packBlock (storeState (finalRound s rk)) ∧
    aesCipherRound (packBlock (storeState s))
        (packWord (rk 0) ++ packWord (rk 1) ++ packWord (rk 2) ++ packWord (rk 3)) false =
      packBlock (storeState (cipherRound s rk))

/-! ## Key expansion and the ciphers -/

/-- `ExpandKey` of a key of 16, 24 or 32 bytes (spec/43_key_expand.md rule R126): 44, 52 or 60 words, the
first `Nk` the key's own, every later one by the recurrence, whose `RotWord`, `SubWord` and three-branch
`Temp` are spelled out (rules R121, R122, R125). -/
def Obligations.ExpandKeyFollowsRecurrence : Prop :=
  (∀ v : Word, rotWord v = ⟨v.a1, v.a2, v.a3, v.a0⟩ ∧ subWord v = ⟨sbox v.a0, sbox v.a1, sbox v.a2, sbox v.a3⟩) ∧
  (∀ v u : Word, Word.xor v u = ⟨v.a0 ^^^ u.a0, v.a1 ^^^ u.a1, v.a2 ^^^ u.a2, v.a3 ^^^ u.a3⟩) ∧
  (∀ nk ∈ [4, 6, 8], ∀ (i : Nat) (v : Word), nk ≤ i → i < 4 * (nk + 7) →
    keyTemp i nk v =
      if i % nk = 0 then ⟨sbox v.a1 ^^^ (rcon (i / nk)).a0, sbox v.a2, sbox v.a3, sbox v.a0⟩
      else if 6 < nk ∧ i % nk = 4 then ⟨sbox v.a0, sbox v.a1, sbox v.a2, sbox v.a3⟩
      else v) ∧
  ∀ nk ∈ [4, 6, 8], ∀ key : List Byte, key.length = 4 * nk →
    (expandKey key).length = 4 * (nk + 7) ∧
    (∀ j, j < nk →
      (expandKey key).getD j Word.zero =
        ⟨key.getD (4 * j) 0, key.getD (4 * j + 1) 0, key.getD (4 * j + 2) 0, key.getD (4 * j + 3) 0⟩) ∧
    (∀ i, nk ≤ i → i < 4 * (nk + 7) →
      (expandKey key).getD i Word.zero =
        Word.xor ((expandKey key).getD (i - nk) Word.zero)
          (keyTemp i nk ((expandKey key).getD (i - 1) Word.zero)))

/-- The round trip (spec/45_decrypt_core.md rule R151): for every schedule and number of rounds, `Decrypt`
undoes `Encrypt` and `Encrypt` undoes `Decrypt`, on every block. -/
def Obligations.DecryptUndoesEncrypt : Prop :=
  ∀ (schedule : List Word) (nr : Nat) (b : Block),
    decrypt (encrypt b schedule nr) schedule nr = b ∧ encrypt (decrypt b schedule nr) schedule nr = b

/-- At the ports: a `DEC` of what an `ENC` answered under the same schedule answers the `ENC`'s block, and the
other way round, whatever the unused lanes hold (spec/44_encrypt_core.md rule R142, spec/45_decrypt_core.md
rule R152). -/
def Obligations.DecOfEncReturnsBlock : Prop :=
  ∀ (s : State) (data : BitVec 256) (lanes : BitVec 128),
    (decResult ((encResult data s).rspData ++ lanes) (encResult data s)).rspData = data.extractLsb' 128 128 ∧
    (encResult ((decResult data s).rspData ++ lanes) (decResult data s)).rspData = data.extractLsb' 128 128
end

