-- ==== Sys2Proof/Laws/Memory.lean ====
section
/-!
SUPPORT. The laws of the key-schedule memory: a read after a write, words and lists of words, the canonical
form, and that two canonical memories that read alike are equal.
-/

namespace Sys2Proof.Machine

/-! ## One byte -/

@[simp] theorem Memory.read_nil (a : Nat) : Memory.read [] a = unlistedByte := rfl

theorem Memory.read_cons (c : Host.Cell) (m : Memory) (a : Nat) :
    Memory.read (c :: m) a = if c.1 = a then c.2 else Memory.read m a := rfl

theorem Memory.read_erase (m : Memory) (a b : Nat) :
    Memory.read (Memory.erase m a) b = if a = b then unlistedByte else Memory.read m b := by
  induction m with
  | nil => simp [Memory.erase]
  | cons c m ih =>
    by_cases h : c.1 = a
    · simp only [Memory.erase, h, if_true, ih, Memory.read_cons]
      by_cases hb : a = b <;> simp [hb]
    · simp only [Memory.erase, h, if_false, ih, Memory.read_cons]
      by_cases hb : a = b
      · subst hb; simp [h]
      · simp [hb]

theorem Memory.read_insert (m : Memory) (a b : Nat) (v : Byte) (h : Memory.read m a = unlistedByte)
    (hm : ∀ c ∈ m, c.1 ≠ a) :
    Memory.read (Memory.insert m a v) b = if a = b then v else Memory.read m b := by
  induction m with
  | nil => simp [Memory.insert, Memory.read_cons]
  | cons c m ih =>
    have hc : c.1 ≠ a := hm c (by simp)
    have h' : Memory.read m a = unlistedByte := by simpa [Memory.read_cons, hc] using h
    by_cases hlt : a < c.1
    · simp [Memory.insert, hlt, Memory.read_cons]
    · simp only [Memory.insert, hlt, if_false, Memory.read_cons,
        ih h' (fun d hd => hm d (List.mem_cons_of_mem _ hd))]
      by_cases hb : a = b
      · subst hb; simp [hc]
      · simp [hb]

theorem Memory.erase_absent (m : Memory) (a : Nat) : ∀ c ∈ Memory.erase m a, c.1 ≠ a := by
  induction m with
  | nil => simp [Memory.erase]
  | cons c m ih =>
    by_cases h : c.1 = a
    · simpa [Memory.erase, h] using ih
    · simp only [Memory.erase, h, if_false, List.mem_cons, forall_eq_or_imp]
      exact ⟨h, ih⟩

/-- A read after a write: the byte written at its own cell, and every other cell as before. -/
theorem Memory.read_write (m : Memory) (a b : Nat) (v : Byte) :
    Memory.read (Memory.write m a v) b = if a = b then v else Memory.read m b := by
  by_cases hv : v = unlistedByte
  · simp [Memory.write, hv, Memory.read_erase]
  · simp only [Memory.write, hv, if_false]
    rw [Memory.read_insert _ _ _ _ (by simp [Memory.read_erase]) (Memory.erase_absent m a),
      Memory.read_erase]
    by_cases hb : a = b <;> simp [hb]

/-! ## The canonical form -/

theorem Memory.wf_cons (c : Host.Cell) (m : Memory) :
    Memory.wf (c :: m) = true ↔
      c.2 ≠ unlistedByte ∧ c.1 < ksCells ∧ (∀ d ∈ m, c.1 < d.1) ∧ Memory.wf m = true := by
  simp [Memory.wf, and_assoc]

theorem Memory.mem_of_mem_erase {m : Memory} {a : Nat} {c : Host.Cell} (h : c ∈ Memory.erase m a) :
    c ∈ m := by
  induction m with
  | nil => simp [Memory.erase] at h
  | cons d m ih =>
    by_cases hd : d.1 = a
    · simp only [Memory.erase, hd, if_true] at h
      exact List.mem_cons_of_mem _ (ih h)
    · simp only [Memory.erase, hd, if_false, List.mem_cons] at h
      rcases h with rfl | h
      · simp
      · exact List.mem_cons_of_mem _ (ih h)

theorem Memory.erase_wf {m : Memory} (a : Nat) (h : Memory.wf m = true) :
    Memory.wf (Memory.erase m a) = true := by
  induction m with
  | nil => rfl
  | cons c m ih =>
    obtain ⟨h1, h2, h3, h4⟩ := (Memory.wf_cons c m).mp h
    by_cases hc : c.1 = a
    · simpa [Memory.erase, hc] using ih h4
    · simp only [Memory.erase, hc, if_false]
      exact (Memory.wf_cons _ _).mpr ⟨h1, h2, fun d hd => h3 d (Memory.mem_of_mem_erase hd), ih h4⟩

theorem Memory.mem_insert {m : Memory} {a : Nat} {v : Byte} {c : Host.Cell}
    (h : c ∈ Memory.insert m a v) : c = (a, v) ∨ c ∈ m := by
  induction m with
  | nil => simpa [Memory.insert] using h
  | cons d m ih =>
    by_cases hlt : a < d.1
    · simpa [Memory.insert, hlt] using h
    · simp only [Memory.insert, hlt, if_false, List.mem_cons] at h
      rcases h with rfl | h
      · simp
      · rcases ih h with h | h
        · exact .inl h
        · exact .inr (List.mem_cons_of_mem _ h)

theorem Memory.insert_wf {m : Memory} {a : Nat} {v : Byte} (h : Memory.wf m = true)
    (hm : ∀ c ∈ m, c.1 ≠ a) (hv : v ≠ unlistedByte) (ha : a < ksCells) :
    Memory.wf (Memory.insert m a v) = true := by
  induction m with
  | nil => simp [Memory.insert, Memory.wf, hv, ha]
  | cons c m ih =>
    obtain ⟨h1, h2, h3, h4⟩ := (Memory.wf_cons c m).mp h
    have hc : c.1 ≠ a := hm c (by simp)
    by_cases hlt : a < c.1
    · simp only [Memory.insert, hlt, if_true]
      refine (Memory.wf_cons _ _).mpr ⟨hv, ha, ?_, h⟩
      intro d hd
      rcases List.mem_cons.mp hd with rfl | hd
      · exact hlt
      · exact lt_trans hlt (h3 d hd)
    · simp only [Memory.insert, hlt, if_false]
      refine (Memory.wf_cons _ _).mpr
        ⟨h1, h2, ?_, ih h4 (fun d hd => hm d (List.mem_cons_of_mem _ hd))⟩
      intro d hd
      rcases Memory.mem_insert hd with rfl | hd
      · exact lt_of_le_of_ne (not_lt.mp hlt) hc
      · exact h3 d hd

/-- A write inside the space keeps the canonical form. -/
theorem Memory.write_wf {m : Memory} {a : Nat} (v : Byte) (h : Memory.wf m = true) (ha : a < ksCells) :
    Memory.wf (Memory.write m a v) = true := by
  by_cases hv : v = unlistedByte
  · simpa [Memory.write, hv] using Memory.erase_wf a h
  · simpa [Memory.write, hv] using
      Memory.insert_wf (Memory.erase_wf a h) (Memory.erase_absent m a) hv ha

theorem Memory.read_eq_unlisted_of_lt {m : Memory} {a : Nat} (h : ∀ d ∈ m, a < d.1) :
    Memory.read m a = unlistedByte := by
  induction m with
  | nil => rfl
  | cons c m ih =>
    have hc : a < c.1 := h c (by simp)
    simp only [Memory.read_cons, Nat.ne_of_gt hc, if_false]
    exact ih fun d hd => h d (List.mem_cons_of_mem _ hd)

/-- A canonical memory lists nothing outside the space. -/
theorem Memory.read_outside {m : Memory} (h : Memory.wf m = true) {a : Nat} (ha : ksCells ≤ a) :
    Memory.read m a = unlistedByte := by
  induction m with
  | nil => rfl
  | cons c m ih =>
    obtain ⟨-, h2, -, h4⟩ := (Memory.wf_cons c m).mp h
    rw [Memory.read_cons, if_neg (by omega), ih h4]

/-- Canonical memories that read alike are equal. -/
theorem Memory.ext {m n : Memory} (hm : Memory.wf m = true) (hn : Memory.wf n = true)
    (h : ∀ a, Memory.read m a = Memory.read n a) : m = n := by
  induction m generalizing n with
  | nil =>
    cases n with
    | nil => rfl
    | cons d n =>
      have := (Memory.wf_cons d n).mp hn
      have hd := h d.1
      simp [Memory.read_cons] at hd
      exact absurd hd.symm this.1
  | cons c m ih =>
    obtain ⟨c1, -, c3, c4⟩ := (Memory.wf_cons c m).mp hm
    cases n with
    | nil =>
      have hc := h c.1
      simp [Memory.read_cons] at hc
      exact absurd hc c1
    | cons d n =>
      obtain ⟨d1, -, d3, d4⟩ := (Memory.wf_cons d n).mp hn
      have key : c.1 = d.1 := by
        rcases lt_trichotomy c.1 d.1 with hlt | heq | hgt
        · have hc := h c.1
          rw [Memory.read_cons, if_pos rfl, Memory.read_eq_unlisted_of_lt (m := d :: n)] at hc
          · exact absurd hc c1
          · intro e he
            rcases List.mem_cons.mp he with rfl | he
            · exact hlt
            · exact lt_trans hlt (d3 e he)
        · exact heq
        · have hd := h d.1
          rw [Memory.read_cons (c := d), if_pos rfl, Memory.read_eq_unlisted_of_lt (m := c :: m)] at hd
          · exact absurd hd.symm d1
          · intro e he
            rcases List.mem_cons.mp he with rfl | he
            · exact hgt
            · exact lt_trans hgt (c3 e he)
      have hv : c.2 = d.2 := by
        have := h c.1
        rwa [Memory.read_cons, if_pos rfl, Memory.read_cons, if_pos key.symm] at this
      have tail : m = n := by
        refine ih c4 d4 fun a => ?_
        by_cases ha : c.1 = a
        · subst ha
          rw [Memory.read_eq_unlisted_of_lt c3, Memory.read_eq_unlisted_of_lt (key ▸ d3)]
        · have := h a
          rwa [Memory.read_cons, if_neg ha, Memory.read_cons, if_neg (key ▸ ha)] at this
      rw [tail, Prod.ext key hv]

/-! ## One word -/

@[simp] theorem memRead_nil (i : Nat) : memRead [] i = Word.zero := rfl

/-- A read of a word after a write of a word. -/
@[simp] theorem memRead_memWrite (m : Memory) (i j : Nat) (v : Word) :
    memRead (memWrite m i v) j = if i = j then v else memRead m j := by
  by_cases h : i = j
  · subst h
    simp only [memRead, memWrite, Memory.read_write, if_true]
    simp
  · simp only [memRead, memWrite, Memory.read_write, h, if_false]
    congr 1 <;> (repeat rw [if_neg (by omega)])

/-- Writing a word leaves every cell outside its four as it was. -/
theorem read_memWrite_outside (m : Memory) (i a : Nat) (v : Word) (h : a / 4 ≠ i) :
    Memory.read (memWrite m i v) a = Memory.read m a := by
  simp only [memWrite, Memory.read_write]
  repeat rw [if_neg (by omega)]

theorem memWrite_wf {m : Memory} {i : Nat} (v : Word) (h : Memory.wf m = true) (hi : i < Config.ksDepth) :
    Memory.wf (memWrite m i v) = true := by
  have hi' : i < 60 := hi
  have hk : ksCells = 240 := rfl
  exact Memory.write_wf _ (Memory.write_wf _ (Memory.write_wf _
    (Memory.write_wf _ h (by omega)) (by omega)) (by omega)) (by omega)

/-- Canonical memories whose 60 words read alike are equal. -/
theorem memory_ext_words {m n : Memory} (hm : Memory.wf m = true) (hn : Memory.wf n = true)
    (h : ∀ i, i < Config.ksDepth → memRead m i = memRead n i) : m = n := by
  refine Memory.ext hm hn fun a => ?_
  have hk : ksCells = 240 := rfl
  by_cases ha : a < ksCells
  · have := h (a / 4) (by show a / 4 < 60; omega)
    simp only [memRead, Word.mk.injEq] at this
    obtain ⟨h0, h1, h2, h3⟩ := this
    have hr : a % 4 < 4 := Nat.mod_lt _ (by decide)
    have he : a = 4 * (a / 4) + a % 4 := by omega
    rw [he]
    interval_cases a % 4 <;> assumption
  · rw [Memory.read_outside hm (by omega), Memory.read_outside hn (by omega)]

/-! ## A list of words -/

@[simp] theorem memWriteList_nil (m : Memory) (i : Nat) : memWriteList m i [] = m := rfl

theorem memWriteList_cons (m : Memory) (i : Nat) (v : Word) (ws : List Word) :
    memWriteList m i (v :: ws) = memWriteList (memWrite m i v) (i + 1) ws := rfl

/-- A read of a word after a list of words is written from word `i` on. -/
theorem memRead_memWriteList (m : Memory) (i j : Nat) (ws : List Word) :
    memRead (memWriteList m i ws) j =
      if i ≤ j ∧ j < i + ws.length then ws.getD (j - i) Word.zero else memRead m j := by
  induction ws generalizing m i with
  | nil => simp only [memWriteList_nil, List.length_nil, Nat.add_zero]; rw [if_neg (by omega)]
  | cons v ws ih =>
    rw [memWriteList_cons, ih, memRead_memWrite, List.length_cons]
    by_cases hij : i = j
    · subst hij
      rw [if_neg (by omega), if_pos rfl, if_pos (by omega), Nat.sub_self]
      rfl
    · rw [if_neg hij]
      by_cases h : i ≤ j ∧ j < i + (ws.length + 1)
      · rw [if_pos (by omega), if_pos h, show j - i = (j - (i + 1)) + 1 by omega, List.getD_cons_succ]
      · rw [if_neg (by omega), if_neg h]

theorem memWriteList_wf {m : Memory} {i : Nat} {ws : List Word} (h : Memory.wf m = true)
    (hi : i + ws.length ≤ Config.ksDepth) : Memory.wf (memWriteList m i ws) = true := by
  induction ws generalizing m i with
  | nil => simpa using h
  | cons v ws ih =>
    rw [List.length_cons] at hi
    exact ih (memWrite_wf v h (by omega)) (by omega)

end Sys2Proof.Machine
end

