-- ==== Sys2Proof/Laws/State.lean ====
section
/-!
SUPPORT. What each named update does to each field of the state: one lemma a field, true by unfolding once, so
that no later proof unfolds a record update.
-/

namespace Sys2Proof.Machine

/-! ## `State.advance` -/

@[simp] theorem advance_nk (s : State) : (State.advance s).nk = s.nk := rfl
@[simp] theorem advance_ksValid (s : State) : (State.advance s).ksValid = s.ksValid := rfl
@[simp] theorem advance_w (s : State) : (State.advance s).w = s.w := rfl
@[simp] theorem advance_rspValid (s : State) : (State.advance s).rspValid = s.rspValid := rfl
@[simp] theorem advance_rspErr (s : State) : (State.advance s).rspErr = s.rspErr := rfl
@[simp] theorem advance_rspData (s : State) : (State.advance s).rspData = s.rspData := rfl
@[simp] theorem advance_phase (s : State) : (State.advance s).phase = s.phase := rfl
@[simp] theorem advance_rnd (s : State) : (State.advance s).rnd = s.rnd := rfl
@[simp] theorem advance_kidx (s : State) : (State.advance s).kidx = s.kidx := rfl
@[simp] theorem advance_s (s : State) : (State.advance s).s = s.s := rfl
@[simp] theorem advance_inputs (s : State) : (State.advance s).inputs = s.inputs.tail := rfl

/-! ## `State.drive` -/

@[simp] theorem drive_nk (s : State) (p : Pins) : (State.drive s p).nk = s.nk := rfl
@[simp] theorem drive_ksValid (s : State) (p : Pins) : (State.drive s p).ksValid = s.ksValid := rfl
@[simp] theorem drive_w (s : State) (p : Pins) : (State.drive s p).w = s.w := rfl
@[simp] theorem drive_rspValid (s : State) (p : Pins) : (State.drive s p).rspValid = s.rspValid := rfl
@[simp] theorem drive_rspErr (s : State) (p : Pins) : (State.drive s p).rspErr = s.rspErr := rfl
@[simp] theorem drive_rspData (s : State) (p : Pins) : (State.drive s p).rspData = s.rspData := rfl
@[simp] theorem drive_phase (s : State) (p : Pins) : (State.drive s p).phase = s.phase := rfl
@[simp] theorem drive_rnd (s : State) (p : Pins) : (State.drive s p).rnd = s.rnd := rfl
@[simp] theorem drive_kidx (s : State) (p : Pins) : (State.drive s p).kidx = s.kidx := rfl
@[simp] theorem drive_s (s : State) (p : Pins) : (State.drive s p).s = s.s := rfl
@[simp] theorem drive_inputs (s : State) (p : Pins) : (State.drive s p).inputs = p :: s.inputs.tail := rfl

/-! ## `State.afterEdges` -/

@[simp] theorem afterEdges_nk (s : State) (n : Nat) : (State.afterEdges s n).nk = s.nk := rfl
@[simp] theorem afterEdges_ksValid (s : State) (n : Nat) : (State.afterEdges s n).ksValid = s.ksValid := rfl
@[simp] theorem afterEdges_w (s : State) (n : Nat) : (State.afterEdges s n).w = s.w := rfl
@[simp] theorem afterEdges_rspValid (s : State) (n : Nat) :
    (State.afterEdges s n).rspValid = s.rspValid := rfl
@[simp] theorem afterEdges_rspErr (s : State) (n : Nat) : (State.afterEdges s n).rspErr = s.rspErr := rfl
@[simp] theorem afterEdges_rspData (s : State) (n : Nat) : (State.afterEdges s n).rspData = s.rspData := rfl
@[simp] theorem afterEdges_phase (s : State) (n : Nat) : (State.afterEdges s n).phase = s.phase := rfl
@[simp] theorem afterEdges_rnd (s : State) (n : Nat) : (State.afterEdges s n).rnd = s.rnd := rfl
@[simp] theorem afterEdges_kidx (s : State) (n : Nat) : (State.afterEdges s n).kidx = s.kidx := rfl
@[simp] theorem afterEdges_s (s : State) (n : Nat) : (State.afterEdges s n).s = s.s := rfl
@[simp] theorem afterEdges_inputs (s : State) (n : Nat) :
    (State.afterEdges s n).inputs = s.inputs.drop n := rfl

/-! ## `respond` -/

@[simp] theorem respond_nk (s : State) (v : Bool) (e : BitVec 3) (d : BitVec 128) :
    (respond s v e d).nk = s.nk := rfl
@[simp] theorem respond_ksValid (s : State) (v : Bool) (e : BitVec 3) (d : BitVec 128) :
    (respond s v e d).ksValid = s.ksValid := rfl
@[simp] theorem respond_w (s : State) (v : Bool) (e : BitVec 3) (d : BitVec 128) :
    (respond s v e d).w = s.w := rfl
@[simp] theorem respond_rspValid (s : State) (v : Bool) (e : BitVec 3) (d : BitVec 128) :
    (respond s v e d).rspValid = v := rfl
@[simp] theorem respond_rspErr (s : State) (v : Bool) (e : BitVec 3) (d : BitVec 128) :
    (respond s v e d).rspErr = e := rfl
@[simp] theorem respond_rspData (s : State) (v : Bool) (e : BitVec 3) (d : BitVec 128) :
    (respond s v e d).rspData = d := rfl
@[simp] theorem respond_phase (s : State) (v : Bool) (e : BitVec 3) (d : BitVec 128) :
    (respond s v e d).phase = s.phase := rfl
@[simp] theorem respond_rnd (s : State) (v : Bool) (e : BitVec 3) (d : BitVec 128) :
    (respond s v e d).rnd = s.rnd := rfl
@[simp] theorem respond_kidx (s : State) (v : Bool) (e : BitVec 3) (d : BitVec 128) :
    (respond s v e d).kidx = s.kidx := rfl
@[simp] theorem respond_s (s : State) (v : Bool) (e : BitVec 3) (d : BitVec 128) :
    (respond s v e d).s = s.s := rfl
@[simp] theorem respond_inputs (s : State) (v : Bool) (e : BitVec 3) (d : BitVec 128) :
    (respond s v e d).inputs = s.inputs := rfl

/-! ## `clearResponse` -/

@[simp] theorem clearResponse_nk (s : State) : (clearResponse s).nk = s.nk := rfl
@[simp] theorem clearResponse_ksValid (s : State) : (clearResponse s).ksValid = s.ksValid := rfl
@[simp] theorem clearResponse_w (s : State) : (clearResponse s).w = s.w := rfl
@[simp] theorem clearResponse_rspValid (s : State) : (clearResponse s).rspValid = false := rfl
@[simp] theorem clearResponse_rspErr (s : State) : (clearResponse s).rspErr = 0 := rfl
@[simp] theorem clearResponse_rspData (s : State) : (clearResponse s).rspData = 0 := rfl
@[simp] theorem clearResponse_phase (s : State) : (clearResponse s).phase = s.phase := rfl
@[simp] theorem clearResponse_rnd (s : State) : (clearResponse s).rnd = s.rnd := rfl
@[simp] theorem clearResponse_kidx (s : State) : (clearResponse s).kidx = s.kidx := rfl
@[simp] theorem clearResponse_s (s : State) : (clearResponse s).s = s.s := rfl
@[simp] theorem clearResponse_inputs (s : State) : (clearResponse s).inputs = s.inputs := rfl

/-! ## `raiseError` -/

@[simp] theorem raiseError_nk (s : State) (e : Err) : (raiseError s e).nk = s.nk := rfl
@[simp] theorem raiseError_ksValid (s : State) (e : Err) : (raiseError s e).ksValid = s.ksValid := rfl
@[simp] theorem raiseError_w (s : State) (e : Err) : (raiseError s e).w = s.w := rfl
@[simp] theorem raiseError_rspValid (s : State) (e : Err) : (raiseError s e).rspValid = true := rfl
@[simp] theorem raiseError_rspErr (s : State) (e : Err) : (raiseError s e).rspErr = e.code := rfl
@[simp] theorem raiseError_rspData (s : State) (e : Err) : (raiseError s e).rspData = 0 := rfl
@[simp] theorem raiseError_phase (s : State) (e : Err) : (raiseError s e).phase = s.phase := rfl
@[simp] theorem raiseError_rnd (s : State) (e : Err) : (raiseError s e).rnd = s.rnd := rfl
@[simp] theorem raiseError_kidx (s : State) (e : Err) : (raiseError s e).kidx = s.kidx := rfl
@[simp] theorem raiseError_s (s : State) (e : Err) : (raiseError s e).s = s.s := rfl
@[simp] theorem raiseError_inputs (s : State) (e : Err) : (raiseError s e).inputs = s.inputs := rfl

/-! ## `resetStep` -/

@[simp] theorem resetStep_nk (s : State) : (resetStep s).nk = 0 := rfl
@[simp] theorem resetStep_ksValid (s : State) : (resetStep s).ksValid = false := rfl
@[simp] theorem resetStep_w (s : State) : (resetStep s).w = [] := rfl
@[simp] theorem resetStep_rspValid (s : State) : (resetStep s).rspValid = false := rfl
@[simp] theorem resetStep_rspErr (s : State) : (resetStep s).rspErr = 0 := rfl
@[simp] theorem resetStep_rspData (s : State) : (resetStep s).rspData = 0 := rfl
@[simp] theorem resetStep_phase (s : State) : (resetStep s).phase = .idle := rfl
@[simp] theorem resetStep_rnd (s : State) : (resetStep s).rnd = 0 := rfl
@[simp] theorem resetStep_kidx (s : State) : (resetStep s).kidx = 0 := rfl
@[simp] theorem resetStep_s (s : State) : (resetStep s).s = Grid.zero := rfl
@[simp] theorem resetStep_inputs (s : State) : (resetStep s).inputs = s.inputs := rfl

/-! ## `kexpAccept` -/

@[simp] theorem kexpAccept_nk (s : State) (len : BitVec 6) (data : BitVec 256) :
    (kexpAccept len data s).nk = BitVec.ofNat 4 (len.toNat / 4) := rfl
@[simp] theorem kexpAccept_ksValid (s : State) (len : BitVec 6) (data : BitVec 256) :
    (kexpAccept len data s).ksValid = false := rfl
@[simp] theorem kexpAccept_w (s : State) (len : BitVec 6) (data : BitVec 256) :
    (kexpAccept len data s).w = memWriteList s.w 0 (keyWords (keyBytes data len.toNat) (len.toNat / 4)) := rfl
@[simp] theorem kexpAccept_rspValid (s : State) (len : BitVec 6) (data : BitVec 256) :
    (kexpAccept len data s).rspValid = false := rfl
@[simp] theorem kexpAccept_rspErr (s : State) (len : BitVec 6) (data : BitVec 256) :
    (kexpAccept len data s).rspErr = 0 := rfl
@[simp] theorem kexpAccept_rspData (s : State) (len : BitVec 6) (data : BitVec 256) :
    (kexpAccept len data s).rspData = 0 := rfl
@[simp] theorem kexpAccept_phase (s : State) (len : BitVec 6) (data : BitVec 256) :
    (kexpAccept len data s).phase = .kexpRun := rfl
@[simp] theorem kexpAccept_rnd (s : State) (len : BitVec 6) (data : BitVec 256) :
    (kexpAccept len data s).rnd = s.rnd := rfl
@[simp] theorem kexpAccept_kidx (s : State) (len : BitVec 6) (data : BitVec 256) :
    (kexpAccept len data s).kidx = BitVec.ofNat 6 (len.toNat / 4) := rfl
@[simp] theorem kexpAccept_s (s : State) (len : BitVec 6) (data : BitVec 256) :
    (kexpAccept len data s).s = s.s := rfl
@[simp] theorem kexpAccept_inputs (s : State) (len : BitVec 6) (data : BitVec 256) :
    (kexpAccept len data s).inputs = s.inputs := rfl

/-! ## `kexpWord` -/

@[simp] theorem kexpWord_nk (s : State) : (kexpWord s).nk = s.nk := rfl
@[simp] theorem kexpWord_ksValid (s : State) : (kexpWord s).ksValid = s.ksValid := rfl
@[simp] theorem kexpWord_w (s : State) :
    (kexpWord s).w = memWrite s.w s.kidx.toNat (Word.xor (memRead s.w (s.kidx.toNat - s.nk.toNat))
        (keyTemp s.kidx.toNat s.nk.toNat (memRead s.w (s.kidx.toNat - 1)))) := rfl
@[simp] theorem kexpWord_rspValid (s : State) : (kexpWord s).rspValid = s.rspValid := rfl
@[simp] theorem kexpWord_rspErr (s : State) : (kexpWord s).rspErr = s.rspErr := rfl
@[simp] theorem kexpWord_rspData (s : State) : (kexpWord s).rspData = s.rspData := rfl
@[simp] theorem kexpWord_phase (s : State) : (kexpWord s).phase = s.phase := rfl
@[simp] theorem kexpWord_rnd (s : State) : (kexpWord s).rnd = s.rnd := rfl
@[simp] theorem kexpWord_kidx (s : State) : (kexpWord s).kidx = s.kidx + 1 := rfl
@[simp] theorem kexpWord_s (s : State) : (kexpWord s).s = s.s := rfl
@[simp] theorem kexpWord_inputs (s : State) : (kexpWord s).inputs = s.inputs := rfl

/-! ## `kexpFinish` -/

@[simp] theorem kexpFinish_nk (s : State) : (kexpFinish s).nk = s.nk := rfl
@[simp] theorem kexpFinish_ksValid (s : State) : (kexpFinish s).ksValid = true := rfl
@[simp] theorem kexpFinish_w (s : State) :
    (kexpFinish s).w = memWriteList s.w s.nw (List.replicate (Config.ksDepth - s.nw) Word.zero) := rfl
@[simp] theorem kexpFinish_rspValid (s : State) : (kexpFinish s).rspValid = true := rfl
@[simp] theorem kexpFinish_rspErr (s : State) : (kexpFinish s).rspErr = 0 := rfl
@[simp] theorem kexpFinish_rspData (s : State) : (kexpFinish s).rspData = 0 := rfl
@[simp] theorem kexpFinish_phase (s : State) : (kexpFinish s).phase = .idle := rfl
@[simp] theorem kexpFinish_rnd (s : State) : (kexpFinish s).rnd = s.rnd := rfl
@[simp] theorem kexpFinish_kidx (s : State) : (kexpFinish s).kidx = 0 := rfl
@[simp] theorem kexpFinish_s (s : State) : (kexpFinish s).s = s.s := rfl
@[simp] theorem kexpFinish_inputs (s : State) : (kexpFinish s).inputs = s.inputs := rfl

/-! ## `blockAccept` -/

@[simp] theorem blockAccept_nk (s : State) (run : Phase) (data : BitVec 256) :
    (blockAccept run data s).nk = s.nk := rfl
@[simp] theorem blockAccept_ksValid (s : State) (run : Phase) (data : BitVec 256) :
    (blockAccept run data s).ksValid = s.ksValid := rfl
@[simp] theorem blockAccept_w (s : State) (run : Phase) (data : BitVec 256) :
    (blockAccept run data s).w = s.w := rfl
@[simp] theorem blockAccept_rspValid (s : State) (run : Phase) (data : BitVec 256) :
    (blockAccept run data s).rspValid = false := rfl
@[simp] theorem blockAccept_rspErr (s : State) (run : Phase) (data : BitVec 256) :
    (blockAccept run data s).rspErr = 0 := rfl
@[simp] theorem blockAccept_rspData (s : State) (run : Phase) (data : BitVec 256) :
    (blockAccept run data s).rspData = 0 := rfl
@[simp] theorem blockAccept_phase (s : State) (run : Phase) (data : BitVec 256) :
    (blockAccept run data s).phase = run := rfl
@[simp] theorem blockAccept_rnd (s : State) (run : Phase) (data : BitVec 256) :
    (blockAccept run data s).rnd = 0 := rfl
@[simp] theorem blockAccept_kidx (s : State) (run : Phase) (data : BitVec 256) :
    (blockAccept run data s).kidx = s.kidx := rfl
@[simp] theorem blockAccept_s (s : State) (run : Phase) (data : BitVec 256) :
    (blockAccept run data s).s = loadState (dataBlock data) := rfl
@[simp] theorem blockAccept_inputs (s : State) (run : Phase) (data : BitVec 256) :
    (blockAccept run data s).inputs = s.inputs := rfl

/-! ## `blockFinish` -/

@[simp] theorem blockFinish_nk (s : State) (out : Grid) : (blockFinish out s).nk = s.nk := rfl
@[simp] theorem blockFinish_ksValid (s : State) (out : Grid) : (blockFinish out s).ksValid = s.ksValid := rfl
@[simp] theorem blockFinish_w (s : State) (out : Grid) : (blockFinish out s).w = s.w := rfl
@[simp] theorem blockFinish_rspValid (s : State) (out : Grid) : (blockFinish out s).rspValid = true := rfl
@[simp] theorem blockFinish_rspErr (s : State) (out : Grid) : (blockFinish out s).rspErr = 0 := rfl
@[simp] theorem blockFinish_rspData (s : State) (out : Grid) :
    (blockFinish out s).rspData = packBlock (storeState out) := rfl
@[simp] theorem blockFinish_phase (s : State) (out : Grid) : (blockFinish out s).phase = .idle := rfl
@[simp] theorem blockFinish_rnd (s : State) (out : Grid) : (blockFinish out s).rnd = 0 := rfl
@[simp] theorem blockFinish_kidx (s : State) (out : Grid) : (blockFinish out s).kidx = s.kidx := rfl
@[simp] theorem blockFinish_s (s : State) (out : Grid) : (blockFinish out s).s = Grid.zero := rfl
@[simp] theorem blockFinish_inputs (s : State) (out : Grid) : (blockFinish out s).inputs = s.inputs := rfl

/-! ## Functions of one field -/

@[simp] theorem advance_nr (s : State) : (State.advance s).nr = s.nr := rfl
@[simp] theorem advance_nw (s : State) : (State.advance s).nw = s.nw := rfl
@[simp] theorem respond_nr (s : State) (v : Bool) (e : BitVec 3) (d : BitVec 128) : (respond s v e d).nr = s.nr := rfl
@[simp] theorem respond_nw (s : State) (v : Bool) (e : BitVec 3) (d : BitVec 128) : (respond s v e d).nw = s.nw := rfl
@[simp] theorem kexpWord_nw (s : State) : (kexpWord s).nw = s.nw := rfl
@[simp] theorem kexpFinish_nw (s : State) : (kexpFinish s).nw = s.nw := rfl
@[simp] theorem blockAccept_nr (s : State) (run : Phase) (data : BitVec 256) : (blockAccept run data s).nr = s.nr := rfl
@[simp] theorem blockAccept_nw (s : State) (run : Phase) (data : BitVec 256) : (blockAccept run data s).nw = s.nw := rfl
@[simp] theorem blockFinish_nr (s : State) (out : Grid) : (blockFinish out s).nr = s.nr := rfl
@[simp] theorem blockFinish_nw (s : State) (out : Grid) : (blockFinish out s).nw = s.nw := rfl

/-- With no sample left the host drives nothing. -/
@[simp] theorem pins_nil (s : State) (h : s.inputs = []) : s.pins = Pins.quiet := by simp [State.pins, h]

/-- The coming sample is the first of the list. -/
theorem pins_cons (s : State) (p : Pins) (ps : List Pins) (h : s.inputs = p :: ps) : s.pins = p := by
  simp [State.pins, h]

@[simp] theorem drive_pins (s : State) (p : Pins) : (State.drive s p).pins = p := rfl

end Sys2Proof.Machine
end

