-- ==== Sys2Proof/Laws/Word.lean ====
section
/-!
SUPPORT. The small lemmas of Word and Grid: reading a built word or grid, equality byte by byte, and the laws
of the word XOR.
-/

namespace Sys2Proof

@[simp] theorem Word.get_ofFn (f : Fin 4 → Byte) (k : Fin 4) : (Word.ofFn f).get k = f k := by
  fin_cases k <;> rfl

@[simp] theorem Word.ofFn_get (w : Word) : Word.ofFn w.get = w := rfl

@[ext] theorem Word.ext_get {w v : Word} (h : ∀ k, w.get k = v.get k) : w = v := by
  rw [← Word.ofFn_get w, ← Word.ofFn_get v, funext h]

@[simp] theorem Grid.col_ofFn (f : Fin 4 → Fin 4 → Byte) (c : Fin 4) : (Grid.ofFn f).col c = Word.ofFn (f c) := by
  fin_cases c <;> rfl

@[simp] theorem Grid.get_ofFn (f : Fin 4 → Fin 4 → Byte) (c r : Fin 4) : (Grid.ofFn f).get c r = f c r := by
  simp [Grid.get]

@[simp] theorem Grid.ofFn_get (s : Grid) : Grid.ofFn s.get = s := rfl

@[ext] theorem Grid.ext_get {s t : Grid} (h : ∀ c r, s.get c r = t.get c r) : s = t := by
  rw [← Grid.ofFn_get s, ← Grid.ofFn_get t, funext fun c => funext (h c)]

@[simp] theorem Word.get_zero (k : Fin 4) : Word.zero.get k = 0 := by fin_cases k <;> rfl

@[simp] theorem Grid.get_zero (c r : Fin 4) : Grid.zero.get c r = 0 := by fin_cases c <;> fin_cases r <;> rfl

@[simp] theorem Word.get_xor (w v : Word) (k : Fin 4) : (Word.xor w v).get k = w.get k ^^^ v.get k := by
  fin_cases k <;> rfl

@[simp] theorem Word.xor_zero (w : Word) : Word.xor w Word.zero = w := by ext k; simp

theorem Word.xor_comm (w v : Word) : Word.xor w v = Word.xor v w := by
  apply Word.ext_get; intro k; simp [BitVec.xor_comm]

theorem Word.xor_assoc (w v u : Word) : Word.xor (Word.xor w v) u = Word.xor w (Word.xor v u) := by
  apply Word.ext_get; intro k; simp [BitVec.xor_assoc]

@[simp] theorem Word.xor_self (w : Word) : Word.xor w w = Word.zero := by
  apply Word.ext_get; intro k; simp

end Sys2Proof
end

