-- ==== Sys2Proof/Laws/Ops.lean ====
section
/-!
SUPPORT. For each shared operation what it can do, said once: which key sizes are legal and what `NR` and `NW`
are for them, when the accept checks pass, what each meaning and each step of a running command answers.
-/

namespace Sys2Proof.Machine

/-! ## Key sizes, `NR` and `NW` (rule R14) -/

theorem nrOf_of_pos {nk : Nat} (h : 0 < nk) : nrOf nk = nk + 6 := by simp [nrOf, Nat.ne_of_gt h]

theorem nwOf_of_pos {nk : Nat} (h : 0 < nk) : nwOf nk = 4 * (nk + 7) := by
  simp [nwOf, nrOf, Nat.ne_of_gt h, Config.nb]

/-- The three key sizes with what they give. -/
theorem keySize_cases {s : State} (h : s.keySize) :
    (s.nk.toNat = 4 ∧ s.nr = 10 ∧ s.nw = 44) ∨ (s.nk.toNat = 6 ∧ s.nr = 12 ∧ s.nw = 52) ∨
      (s.nk.toNat = 8 ∧ s.nr = 14 ∧ s.nw = 60) := by
  simp only [State.keySize, List.mem_cons, List.not_mem_nil, or_false] at h
  rcases h with h | h | h <;> simp [State.nr, State.nw, nwOf, nrOf, h, Config.nb]

/-- A legal key length is four times a key size. -/
theorem keyLengths_cases {n : Nat} (h : n ∈ keyLengths) : n = 16 ∨ n = 24 ∨ n = 32 := by
  simpa [keyLengths] using h

/-- An accepted `KEXP` leaves a legal key size in `NK`, and `KIDX` equal to it. -/
theorem kexpAccept_keySize {len : BitVec 6} (h : len.toNat ∈ keyLengths) (data : BitVec 256) (s : State) :
    (kexpAccept len data s).keySize ∧ (kexpAccept len data s).nk.toNat = len.toNat / 4 ∧
      (kexpAccept len data s).kidx.toNat = len.toNat / 4 := by
  rcases keyLengths_cases h with h | h | h <;> simp [State.keySize, h]

/-! ## The checks of the accept step (rules R63, R165) -/

theorem keyError_none {len : BitVec 6} (h : len.toNat ∈ keyLengths) : keyError len = none := by
  simp [keyError, h]

theorem keyError_some {len : BitVec 6} (h : len.toNat ∉ keyLengths) :
    keyError len = some .invalidKeyLength := by
  simp [keyError, h]

theorem blockError_none {len : BitVec 6} (h : len.toNat = 16) : blockError len true = none := by
  simp [blockError, h]

theorem blockError_length {len : BitVec 6} (h : len.toNat ≠ 16) (v : Bool) :
    blockError len v = some .invalidBlockLength := by
  simp [blockError, h]

theorem blockError_schedule {len : BitVec 6} (h : len.toNat = 16) :
    blockError len false = some .noKeySchedule := by
  simp [blockError, h]

/-- `KEXP` passes its check for the three key lengths only. -/
theorem keyError_cases (len : BitVec 6) :
    (len.toNat ∈ keyLengths ∧ keyError len = none) ∨
      (len.toNat ∉ keyLengths ∧ keyError len = some .invalidKeyLength) := by
  by_cases h : len.toNat ∈ keyLengths
  · exact .inl ⟨h, keyError_none h⟩
  · exact .inr ⟨h, keyError_some h⟩

/-- The three outcomes of the checks of `ENC` and `DEC`. -/
theorem blockError_cases (len : BitVec 6) (v : Bool) :
    (len.toNat = 16 ∧ v = true ∧ blockError len v = none) ∨
      (len.toNat = 16 ∧ v = false ∧ blockError len v = some .noKeySchedule) ∨
      (len.toNat ≠ 16 ∧ blockError len v = some .invalidBlockLength) := by
  by_cases h : len.toNat = 16
  · cases v
    · exact .inr (.inl ⟨h, rfl, blockError_schedule h⟩)
    · exact .inl ⟨h, rfl, blockError_none h⟩
  · exact .inr (.inr ⟨h, blockError_length h v⟩)

/-! ## What the meanings answer -/

/-- Every command answers a next state: an error with the response written, or the start of its run. -/
theorem exec_cases (i : Instr) (s : State) :
    (∃ e, acceptError i s = some e ∧ exec i s = .next (raiseError s e)) ∨
      (acceptError i s = none ∧
        ((∃ len data, i = .kexp len data ∧ len.toNat ∈ keyLengths ∧
            exec i s = .next (kexpAccept len data s)) ∨
          (∃ len data, i = .enc len data ∧ len.toNat = 16 ∧ s.ksValid = true ∧
            exec i s = .next (encAccept data s)) ∨
          (∃ len data, i = .dec len data ∧ len.toNat = 16 ∧ s.ksValid = true ∧
            exec i s = .next (decAccept data s)))) := by
  cases i with
  | rsvd len data => exact .inl ⟨_, rfl, rfl⟩
  | kexp len data =>
    rcases keyError_cases len with ⟨h, he⟩ | ⟨h, he⟩
    · exact .inr ⟨he, .inl ⟨len, data, rfl, h, by simp [exec, execKexp, he]⟩⟩
    · exact .inl ⟨_, he, by simp [exec, execKexp, he]⟩
  | enc len data =>
    rcases blockError_cases len s.ksValid with ⟨h, hv, he⟩ | ⟨h, hv, he⟩ | ⟨h, he⟩
    · exact .inr ⟨he, .inr (.inl ⟨len, data, rfl, h, hv, by simp [exec, execEnc, he]⟩)⟩
    · exact .inl ⟨_, he, by simp [exec, execEnc, he]⟩
    · exact .inl ⟨_, he, by simp [exec, execEnc, he]⟩
  | dec len data =>
    rcases blockError_cases len s.ksValid with ⟨h, hv, he⟩ | ⟨h, hv, he⟩ | ⟨h, he⟩
    · exact .inr ⟨he, .inr (.inr ⟨len, data, rfl, h, hv, by simp [exec, execDec, he]⟩)⟩
    · exact .inl ⟨_, he, by simp [exec, execDec, he]⟩
    · exact .inl ⟨_, he, by simp [exec, execDec, he]⟩

/-- A step of `KEXP_RUN`: a word inside the spaces, the finish, or a stop outside them. -/
theorem kexpStep_cases (s : State) :
    (s.kidx.toNat < s.nw ∧ kexpIndexFault s.nk.toNat s.kidx.toNat = none ∧ kexpStep s = .next (kexpWord s)) ∨
      (s.nw ≤ s.kidx.toNat ∧ kexpStep s = .next (kexpFinish s)) ∨
      (∃ f, s.kidx.toNat < s.nw ∧ kexpIndexFault s.nk.toNat s.kidx.toNat = some f ∧ kexpStep s = .fault f) := by
  by_cases h : s.kidx.toNat < s.nw
  · cases hf : kexpIndexFault s.nk.toNat s.kidx.toNat with
    | none => exact .inl ⟨h, rfl, by simp [kexpStep, h, hf]⟩
    | some f => exact .inr (.inr ⟨f, h, rfl, by simp [kexpStep, h, hf]⟩)
  · exact .inr (.inl ⟨not_lt.mp h, by simp [kexpStep, h]⟩)

/-- For a legal key size and an index the recurrence reaches, no access lies outside its space
(rules R45, R46). -/
theorem kexpIndexFault_none {nk i : Nat} (hk : nk ∈ [4, 6, 8]) (h1 : nk ≤ i) (h2 : i < nwOf nk) :
    kexpIndexFault nk i = none := by
  have hd : Config.ksDepth = 60 := rfl
  have hr : Config.rconDepth = 11 := rfl
  have hw : nwOf nk = 4 * (nk + 7) := nwOf_of_pos (by
    simp only [List.mem_cons, List.not_mem_nil, or_false] at hk; omega)
  have hq : i / nk ≤ 10 := by
    simp only [List.mem_cons, List.not_mem_nil, or_false] at hk
    rcases hk with rfl | rfl | rfl <;> omega
  have hn : 4 ≤ nk ∧ nk ≤ 8 := by
    simp only [List.mem_cons, List.not_mem_nil, or_false] at hk
    omega
  rw [kexpIndexFault, if_neg (by omega), if_neg (by omega)]

/-- The words of a round key up to round 14 lie in `KS` (rules R16, R46). -/
theorem roundKeyFault_none {r : Nat} (h : r ≤ 14) : roundKeyFault r = none := by
  have hd : Config.ksDepth = 60 := rfl
  rw [roundKeyFault, if_pos (by omega)]

/-- With a legal key size no step of `ENC_RUN` stops: it adds the first round key, runs a round, or
finishes (rule R143). -/
theorem encStep_cases {s : State} (hk : s.keySize) :
    (s.rnd.toNat = 0 ∧ encStep s = .next { s with s := addRoundKey s.s (roundKey s.w 0), rnd := 1 }) ∨
      (0 < s.rnd.toNat ∧ s.rnd.toNat < s.nr ∧
        encStep s = .next { s with s := cipherRound s.s (roundKey s.w s.rnd.toNat), rnd := s.rnd + 1 }) ∨
      (0 < s.rnd.toNat ∧ s.nr ≤ s.rnd.toNat ∧
        encStep s = .next (blockFinish (finalRound s.s (roundKey s.w s.nr)) s)) := by
  have hn : s.nr ≤ 14 := by rcases keySize_cases hk with ⟨-, h, -⟩ | ⟨-, h, -⟩ | ⟨-, h, -⟩ <;> omega
  by_cases h0 : s.rnd.toNat = 0
  · exact .inl ⟨h0, by simp [encStep, h0]⟩
  · by_cases h1 : s.rnd.toNat < s.nr
    · exact .inr (.inl ⟨by omega, h1, by
        simp [encStep, h0, h1, roundKeyFault_none (show s.rnd.toNat ≤ 14 by omega)]⟩)
    · exact .inr (.inr ⟨by omega, by omega, by simp [encStep, h0, h1, roundKeyFault_none hn]⟩)

/-- With a legal key size no step of `DEC_RUN` stops: it adds the last round key, runs an inverse round,
or finishes (rule R153). -/
theorem decStep_cases {s : State} (hk : s.keySize) :
    (s.rnd.toNat = 0 ∧ decStep s = .next { s with s := addRoundKey s.s (roundKey s.w s.nr), rnd := 1 }) ∨
      (0 < s.rnd.toNat ∧ s.rnd.toNat < s.nr ∧
        decStep s =
          .next { s with s := invRound s.s (roundKey s.w (s.nr - s.rnd.toNat)), rnd := s.rnd + 1 }) ∨
      (0 < s.rnd.toNat ∧ s.nr ≤ s.rnd.toNat ∧
        decStep s = .next (blockFinish (invFinalRound s.s (roundKey s.w 0)) s)) := by
  have hn : s.nr ≤ 14 := by rcases keySize_cases hk with ⟨-, h, -⟩ | ⟨-, h, -⟩ | ⟨-, h, -⟩ <;> omega
  by_cases h0 : s.rnd.toNat = 0
  · exact .inl ⟨h0, by simp [decStep, h0, roundKeyFault_none hn]⟩
  · by_cases h1 : s.rnd.toNat < s.nr
    · exact .inr (.inl ⟨by omega, h1, by
        simp [decStep, h0, h1, roundKeyFault_none (show s.nr - s.rnd.toNat ≤ 14 by omega)]⟩)
    · exact .inr (.inr ⟨by omega, by omega, by simp [decStep, h0, h1]⟩)

/-! ## One edge -/

/-- What one edge does: a reset, an accepted command, or a step of the command in progress. -/
theorem edge_cases (p : Pins) (s : State) :
    (p.rst = true ∧ edge p s = .next (resetStep s)) ∨
      (p.rst = false ∧ s.phase = .idle ∧ p.cmdValid = true ∧ edge p s = exec p.command s) ∨
      (p.rst = false ∧ (s.phase ≠ .idle ∨ p.cmdValid = false) ∧ edge p s = runStep s) := by
  cases hr : p.rst with
  | true => exact .inl ⟨rfl, by simp [edge, hr]⟩
  | false =>
    by_cases h : s.phase = .idle ∧ p.cmdValid = true
    · exact .inr (.inl ⟨rfl, h.1, h.2, by simp [edge, hr, h]⟩)
    · refine .inr (.inr ⟨rfl, ?_, by simp [edge, hr, h]⟩)
      by_cases hp : s.phase = .idle
      · exact .inr (by simpa [hp] using h)
      · exact .inl hp

theorem step_eq_edge (s : State) : step s = edge s.pins s.advance := rfl

/-- The byte lanes of an accepted key: its first words are the words of the key (rule R123). -/
theorem keyWords_length (key : List Byte) (nk : Nat) : (keyWords key nk).length = nk := by simp [keyWords]

theorem keyBytes_length (data : BitVec 256) (len : Nat) : (keyBytes data len).length = len := by
  simp [keyBytes]

end Sys2Proof.Machine
end

