-- ==== Sys2Proof/Laws/KeySchedule.lean ====
section
/-!
SUPPORT. The key expansion as a list: how long it is, that a turn only appends, and that the word steps of a run
follow it.
-/

namespace Sys2Proof.Machine

@[simp] theorem expandTurn_length (nk i : Nat) (ws : List Word) :
    (expandTurn nk ws i).length = ws.length + 1 := by simp [expandTurn]

theorem foldl_expandTurn_length (nk : Nat) (is : List Nat) (ws : List Word) :
    (is.foldl (expandTurn nk) ws).length = ws.length + is.length := by
  induction is generalizing ws with
  | nil => simp
  | cons i is ih => simp [ih]; omega

/-- Later turns leave the words already there as they are. -/
theorem foldl_expandTurn_getD (nk : Nat) (is : List Nat) (ws : List Word) {j : Nat} (h : j < ws.length) :
    (is.foldl (expandTurn nk) ws).getD j Word.zero = ws.getD j Word.zero := by
  induction is generalizing ws with
  | nil => rfl
  | cons i is ih =>
    rw [List.foldl_cons, ih _ (by simp; omega), expandTurn, List.getD_append _ _ _ _ h]

/-- The whole schedule has `NW` words, at least the key's own. -/
theorem expandKey_length (key : List Byte) :
    (expandKey key).length = key.length / 4 + (nwOf (key.length / 4) - key.length / 4) := by
  simp [expandKey, foldl_expandTurn_length, keyWords_length]

/-- The memory of a schedule reads as the schedule, and as zero above it. -/
theorem memRead_scheduleMemory (ws : List Word) (i : Nat) :
    memRead (scheduleMemory ws) i = ws.getD i Word.zero := by
  rw [scheduleMemory, memRead_memWriteList]
  by_cases h : i < ws.length
  · simp [h]
  · simp [h]

theorem scheduleMemory_wf {ws : List Word} (h : ws.length ≤ Config.ksDepth) :
    Memory.wf (scheduleMemory ws) = true := memWriteList_wf rfl (by omega)

end Sys2Proof.Machine
end

