-- ==== Sys2Proof/Laws/PerInstr.lean ====
section
/-!
SUPPORT. The family TableRow: the encoding of every command matches its own row of spec/opcode_table.json (its match
value under its mask) and carries the command's length and data in the fields of rule R61.
-/

namespace Sys2Proof.Laws.TableRow

/-- The mask of every row: the two opcode bits. -/
def mask : CmdWord := 0b11#2 ++ (0 : BitVec 262)

/-- The match value of the row of each constructor. -/
def pattern : Instr → CmdWord
  | .rsvd _ _ => 0x000000000000000000000000000000000000000000000000000000000000000000#264
  | .kexp _ _ => 0x400000000000000000000000000000000000000000000000000000000000000000#264
  | .enc _ _ => 0x800000000000000000000000000000000000000000000000000000000000000000#264
  | .dec _ _ => 0xc00000000000000000000000000000000000000000000000000000000000000000#264

/-- The encoding of `i` matches the row of `i`, and its fields are those of `i`. -/
def Statement (i : Instr) : Prop :=
  encode i &&& mask = pattern i ∧ (encode i).len = i.lenField ∧ (encode i).data = i.dataField

theorem mask_value :
    mask = 0xc00000000000000000000000000000000000000000000000000000000000000000#264 := by decide +kernel

/-- The fields of a packed command word are what was packed. -/
theorem fields_packCommand (op : BitVec 2) (len : BitVec 6) (data : BitVec 256) :
    packCommand op len data &&& mask = op ++ (0 : BitVec 262) ∧ (packCommand op len data).op = op ∧
      (packCommand op len data).len = len ∧ (packCommand op len data).data = data := by
  refine ⟨?_, ?_, ?_, ?_⟩ <;> apply BitVec.eq_of_getLsbD_eq <;> intro i hi <;>
    simp only [packCommand, mask, CmdWord.op, CmdWord.len, CmdWord.data, BitVec.getLsbD_and,
      BitVec.getLsbD_append, BitVec.getLsbD_extractLsb']
  · by_cases h : i < 262
    · simp [h]
    · have : i - 262 = 0 ∨ i - 262 = 1 := by omega
      rcases this with h' | h' <;> simp [h, h', show ¬ i < 256 by omega, show ¬ i - 256 < 6 by omega, show i - 256 - 6 = i - 262 by omega]
  · simp [hi, show ¬ 262 + i < 256 by omega, show ¬ 262 + i - 256 < 6 by omega,
      show 262 + i - 256 - 6 = i by omega]
  · simp [hi, show ¬ 256 + i < 256 by omega]
  · simp [hi]

theorem rsvd (len : BitVec 6) (data : BitVec 256) : Statement (.rsvd len data) :=
  ⟨(fields_packCommand _ len data).1.trans
    (show 0b00#2 ++ (0 : BitVec 262) = pattern (.rsvd 0 0) by decide +kernel), (fields_packCommand _ len data).2.2⟩

theorem kexp (len : BitVec 6) (data : BitVec 256) : Statement (.kexp len data) :=
  ⟨(fields_packCommand _ len data).1.trans
    (show 0b01#2 ++ (0 : BitVec 262) = pattern (.kexp 0 0) by decide +kernel), (fields_packCommand _ len data).2.2⟩

theorem enc (len : BitVec 6) (data : BitVec 256) : Statement (.enc len data) :=
  ⟨(fields_packCommand _ len data).1.trans
    (show 0b10#2 ++ (0 : BitVec 262) = pattern (.enc 0 0) by decide +kernel), (fields_packCommand _ len data).2.2⟩

theorem dec (len : BitVec 6) (data : BitVec 256) : Statement (.dec len data) :=
  ⟨(fields_packCommand _ len data).1.trans
    (show 0b11#2 ++ (0 : BitVec 262) = pattern (.dec 0 0) by decide +kernel), (fields_packCommand _ len data).2.2⟩

end Sys2Proof.Laws.TableRow
end

