-- ==== Sys2Proof/Laws/Run.lean ====
section
/-!
SUPPORT. Runs: what one step is in each situation, one more step at the end of a run, the samples a run uses up,
and the round keys of a schedule read from memory.
-/

namespace Sys2Proof.Machine

/-! ## One step -/

/-- A step with `rst = 1` is the reset step. -/
theorem step_reset {s : State} (h : s.pins.rst = true) : step s = .next (resetStep s.advance) := by
  simp [step_eq_edge, edge, h]

/-- A step at an accept edge of `i` is `exec i`. -/
theorem step_accept {s : State} {i : Instr} (h : s.presents i) : step s = exec i s.advance := by
  obtain ⟨h1, h2, h3, rfl⟩ := h
  simp [step_eq_edge, edge, h1, h2, h3]

/-- A step of an idle core to which nothing is presented only uses up the sample. -/
theorem step_idle {s : State} (hp : s.phase = .idle) (hr : s.pins.rst = false)
    (hc : s.pins.cmdValid = false) : step s = .next s.advance := by
  simp [step_eq_edge, edge, runStep, hp, hr, hc]

theorem step_kexpRun {s : State} (hp : s.phase = .kexpRun) (hr : s.pins.rst = false) :
    step s = kexpStep s.advance := by
  simp [step_eq_edge, edge, runStep, hp, hr]

theorem step_encRun {s : State} (hp : s.phase = .encRun) (hr : s.pins.rst = false) :
    step s = encStep s.advance := by
  simp [step_eq_edge, edge, runStep, hp, hr]

theorem step_decRun {s : State} (hp : s.phase = .decRun) (hr : s.pins.rst = false) :
    step s = decStep s.advance := by
  simp [step_eq_edge, edge, runStep, hp, hr]

/-- The five situations of a step (rule R22). -/
theorem step_cases (s : State) :
    (s.pins.rst = true ∧ step s = .next (resetStep s.advance)) ∨
      (∃ i, s.presents i ∧ step s = exec i s.advance) ∨
      (s.pins.rst = false ∧ s.phase = .idle ∧ s.pins.cmdValid = false ∧ step s = .next s.advance) ∨
      (s.pins.rst = false ∧ s.phase = .kexpRun ∧ step s = kexpStep s.advance) ∨
      (s.pins.rst = false ∧ s.phase = .encRun ∧ step s = encStep s.advance) ∨
      (s.pins.rst = false ∧ s.phase = .decRun ∧ step s = decStep s.advance) := by
  cases hr : s.pins.rst with
  | true => exact .inl ⟨rfl, step_reset hr⟩
  | false =>
    refine .inr ?_
    cases hp : s.phase with
    | idle =>
      cases hc : s.pins.cmdValid with
      | true => exact .inl ⟨_, ⟨hp, hr, hc, rfl⟩, step_accept ⟨hp, hr, hc, rfl⟩⟩
      | false => exact .inr (.inl ⟨rfl, rfl, rfl, step_idle hp hr hc⟩)
    | kexpRun => exact .inr (.inr (.inl ⟨rfl, rfl, step_kexpRun hp hr⟩))
    | encRun => exact .inr (.inr (.inr (.inl ⟨rfl, rfl, step_encRun hp hr⟩)))
    | decRun => exact .inr (.inr (.inr (.inr ⟨rfl, rfl, step_decRun hp hr⟩)))

/-! ## Runs -/

@[simp] theorem run_zero (s : State) : run 0 s = .next s := rfl

/-- A run that begins with the step to `t` goes on from `t`. -/
theorem run_succ_left {s t : State} (n : Nat) (h : step s = .next t) : run (n + 1) s = run n t := by
  simp [run, h]

/-- A run of one more edge is one step from where the run came. -/
theorem run_succ_right {n : Nat} {s t : State} (h : run n s = .next t) : run (n + 1) s = step t := by
  induction n generalizing s with
  | zero => cases h; cases hs : step t <;> simp [run, hs]
  | succ n ih =>
    cases hs : step s with
    | next u => rw [run_succ_left _ hs] at h ⊢; exact ih h
    | fault f => simp [run, hs] at h
    | refused r => simp [run, hs] at h

/-- `run` is the host's run of the core. -/
theorem run_eq_core_run (n : Nat) (s : State) : run n s = Sys2Proof.core.run n s := by
  induction n generalizing s with
  | zero => rfl
  | succ n ih =>
    cases hs : step s with
    | next t =>
      have hc : Sys2Proof.core.step s = .next t := hs
      simp [run_succ_left _ hs, ih, Host.Core.run, hc]
      rfl
    | fault f =>
      have hc : Sys2Proof.core.step s = .fault f := hs
      simp [run, hs, Host.Core.run, hc]
      rfl
    | refused r =>
      have hc : Sys2Proof.core.step s = .refused r := hs
      simp [run, hs, Host.Core.run, hc]
      rfl

/-! ## The samples a run uses up -/

@[simp] theorem afterEdges_zero (s : State) : s.afterEdges 0 = s := rfl

theorem advance_eq_afterEdges (s : State) : s.advance = s.afterEdges 1 := by
  simp [State.advance, State.afterEdges]

/-- Where no reset is applied at the coming `n` edges, the sample of each of them says so. -/
theorem noReset_pins {s : State} {n k : Nat} (h : s.noReset n) (hk : k < n) :
    (s.afterEdges k).pins.rst = false := by
  simp only [State.pins, afterEdges_inputs]
  cases hd : s.inputs.drop k with
  | nil => rfl
  | cons p ps =>
    refine h p ?_
    have : s.inputs.take n = s.inputs.take k ++ (p :: ps).take (n - k) := by
      rw [← hd, ← List.take_add, show k + (n - k) = n by omega]
    rw [this, show n - k = (n - k - 1) + 1 by omega]
    simp

theorem noReset_of_le {s : State} {m n : Nat} (h : s.noReset n) (hm : m ≤ n) : s.noReset m := fun p hp =>
  h p (List.take_subset_take_left _ hm hp)

/-! ## Round keys and words of a schedule in memory -/

theorem scheduleWords_getD (m : Memory) {n i : Nat} (h : i < n) :
    (scheduleWords m n).getD i Word.zero = memRead m i := by
  simp [scheduleWords, List.getD_eq_getElem?_getD, h]

/-- The round key a driver reads from memory is the one of the schedule there (rule R16). -/
theorem scheduleKey_scheduleWords (m : Memory) {n r : Nat} (h : 4 * r + 3 < n) :
    scheduleKey (scheduleWords m n) r = roundKey m r := by
  funext c
  exact scheduleWords_getD m (by omega)

end Sys2Proof.Machine
end

