-- ==== Sys2Proof/Machine/Program.lean ====
section
/-!
DEFINITION. The host's side of a program (spec/30_encoding.md rules R66, R67, spec/70_reset_and_hazards.md rules R183,
R184, R185, R192): what each host action makes the host drive, edge by edge, on top of `step`, and what it observes.
A WAIT may be for a response that never comes (log entry 15), so each action has a bound on its edges.
-/

namespace Sys2Proof.Machine

/-- One rising edge at which the host drives `p`. -/
def driveEdge (p : Pins) (s : State) : Option State :=
  match step { s with inputs := [p] } with
  | .next t => some t
  | .fault _ => none
  | .refused _ => none

/-- Present the command with `cmd_valid = 1` until an accept edge, for at most `n` edges (rules R66, R184). -/
def presentUntilAccepted (p : Pins) : Nat → State → Option State
  | 0, _ => none
  | n + 1, s =>
    match driveEdge p s with
    | some t => if s.phase = .idle then some t else presentUntilAccepted p n t
    | none => none

/-- `WAIT`: hold `cmd_valid = 0` for edges until `rsp_valid = 1`, for at most `n` edges (rule R66). -/
def waitForResponse : Nat → State → Option State
  | 0, s => if s.rspValid then some s else none
  | n + 1, s =>
    if s.rspValid then some s
    else
      match driveEdge Pins.quiet s with
      | some t => waitForResponse n t
      | none => none

/-- A command line: present the command until an accept edge, then `WAIT` (rule R66). -/
def issue (n : Nat) (i : Instr) (s : State) : Option State :=
  match presentUntilAccepted (Pins.present (encode i)) n s with
  | some t => waitForResponse n t
  | none => none

/-- A command line or pseudo-command by the command it stands for; where it stands for none, it is no
action. What it observes is what the ports show when its response is there (rule R185). -/
def runCommand (n : Nat) (i : Option Instr) (s : State) : Option (State × Ports) :=
  match i with
  | some i => (issue n i s).map fun t => (t, ports t 0)
  | none => none

/-- One host action, each part of it in at most `n` edges, with what the output ports show when it is
complete (rules R66, R185). A line that is not well formed is no action. -/
def runAction (n : Nat) (a : HostAction) (s : State) : Option (State × Ports) :=
  match a with
  | .reset => (driveEdge { Pins.quiet with rst := true } s).map fun t => (t, ports t 0)
  | .wait => (waitForResponse n s).map fun t => (t, ports t 0)
  | .ksrd j => if j ≤ 63 then some (s, ports s (BitVec.ofNat 6 j)) else none
  | .command c => runCommand n c.toInstr s
  | .pseudo p => runCommand n p.toInstr s

/-- The actions in order, with what each observed (rule R66). -/
def runActions (n : Nat) : List HostAction → State → Option (State × List Ports)
  | [], s => some (s, [])
  | a :: as, s =>
    match runAction n a s with
    | some (t, o) => (runActions n as t).map fun r => (r.1, o :: r.2)
    | none => none

/-- The first idle state from here on with nothing presented, in at most `n` edges (rule R192). -/
def runToIdle : Nat → State → Option State
  | 0, s => if s.phase = .idle then some s else none
  | n + 1, s =>
    if s.phase = .idle then some s
    else
      match driveEdge Pins.quiet s with
      | some t => runToIdle n t
      | none => none

/-- A program: a list of well-formed host actions whose first is `RESET`, since before the first reset no
rule applies (rules R181, R183, R192). -/
def isProgram : List HostAction → Bool
  | .reset :: as => as.all HostAction.wellFormed
  | _ => false

/-- The run of a program: its end is the first idle state after its last action (rule R192). The start
state does not matter, because the first action resets the core. -/
def runProgram (n : Nat) (as : List HostAction) (s : State) : Option (State × List Ports) :=
  if isProgram as then
    match runActions n as s with
    | some (t, os) => (runToIdle n t).map fun u => (u, os)
    | none => none
  else none

end Sys2Proof.Machine
end

