-- ==== Sys2Proof/Machine/Assembler.lean ====
section
/-!
DEFINITION. The textual notation of spec/30_encoding.md rules R66 and R67 as a reader of one line of characters. It is
notation only: nothing of the machine depends on it (log entry 14).
-/

namespace Sys2Proof.Machine

/-- The value of a hexadecimal digit, in either case. -/
def hexValue (c : Char) : Option Nat :=
  if 48 ≤ c.toNat ∧ c.toNat ≤ 57 then some (c.toNat - 48)
  else if 97 ≤ c.toNat ∧ c.toNat ≤ 102 then some (c.toNat - 87)
  else if 65 ≤ c.toNat ∧ c.toNat ≤ 70 then some (c.toNat - 55)
  else none

/-- The value of a decimal digit. -/
def decimalValue (c : Char) : Option Nat :=
  if 48 ≤ c.toNat ∧ c.toNat ≤ 57 then some (c.toNat - 48) else none

/-- `hexbytes`: an even number of hexadecimal digits, possibly with spaces between bytes (rule R66). -/
def readBytes : List Char → Option (List Byte)
  | [] => some []
  | [c] => if c = ' ' then some [] else none
  | c :: d :: cs =>
    if c = ' ' then readBytes (d :: cs)
    else
      match hexValue c, hexValue d, readBytes cs with
      | some h, some l, some bs => some (BitVec.ofNat 8 (16 * h + l) :: bs)
      | _, _, _ => none

/-- The digits of a decimal number, from the most significant on, after the value `acc`. -/
def readDigits (acc : Nat) : List Char → Option Nat
  | [] => some acc
  | c :: cs =>
    match decimalValue c with
    | some d => readDigits (10 * acc + d) cs
    | none => none

/-- A decimal number of at least one digit, with spaces around it. -/
def readNumber (cs : List Char) : Option Nat :=
  let digits := ((cs.dropWhile (· = ' ')).reverse.dropWhile (· = ' ')).reverse
  if digits = [] then none else readDigits 0 digits

/-- The part of a line up to the first `c`, and the part after it. -/
def splitAtChar (c : Char) : List Char → List Char × List Char
  | [] => ([], [])
  | d :: cs => if d = c then ([], cs) else let r := splitAtChar c cs; (d :: r.1, r.2)

/-- The mnemonic a word names (rule R62). -/
def readMnemonic (cs : List Char) : Option Mnemonic :=
  if cs = ['R', 'S', 'V', 'D'] then some .rsvd
  else if cs = ['K', 'E', 'X', 'P'] then some .kexp
  else if cs = ['E', 'N', 'C'] then some .enc
  else if cs = ['D', 'E', 'C'] then some .dec
  else none

/-- The pseudo-command a word names, with the bytes written after it (rule R67). -/
def readPseudo (cs : List Char) (bytes : List Byte) : Option PseudoCommand :=
  if cs = ['K', 'E', 'X', 'P', '1', '2', '8'] then some (.kexp128 bytes)
  else if cs = ['K', 'E', 'X', 'P', '1', '9', '2'] then some (.kexp192 bytes)
  else if cs = ['K', 'E', 'X', 'P', '2', '5', '6'] then some (.kexp256 bytes)
  else if cs = ['E', 'N', 'C', 'B'] then some (.encb bytes)
  else if cs = ['D', 'E', 'C', 'B'] then some (.decb bytes)
  else none

/-- `MNEMONIC len, hexbytes` after the mnemonic (rule R66). DESIGN CHOICE (log entry 14): rule R66 writes the
comma and says nothing of a line without it; such a line, `KEXP 16` or `RSVD 0`, is read as a command with no
bytes written, all lanes 0. -/
def readCommand (m : Mnemonic) (rest : List Char) : Option CommandLine :=
  let (len, bytes) := splitAtChar ',' rest
  match readNumber len, readBytes bytes with
  | some n, some bs => some ⟨m, n, bs⟩
  | _, _ => none

/-- One line of a program text (rules R66, R67): a command, a pseudo-command or a host action. -/
def readLine (line : List Char) : Option HostAction :=
  let (word, rest) := splitAtChar ' ' line
  if word = ['R', 'E', 'S', 'E', 'T'] then (if rest = [] then some .reset else none)
  else if word = ['W', 'A', 'I', 'T'] then (if rest = [] then some .wait else none)
  else if word = ['K', 'S', 'R', 'D'] then (readNumber rest).map .ksrd
  else
    match readMnemonic word with
    | some m => (readCommand m rest).map .command
    | none =>
      match readBytes rest with
      | some bs => (readPseudo word bs).map .pseudo
      | none => none

end Sys2Proof.Machine
end

