-- ==== Sys2Proof/Tests/Slice0.lean ====
section
/-!
SUPPORT. Tests: each check of WellFormed refuses an ill-formed term; command words written out from
spec/30_encoding.md; values of spec/95_test_vectors.md and of the rules' own worked figures; and, for every
obligation with hypotheses, a state and operands that meet them (theorems witness_…).
-/

namespace Sys2Proof.Tests

open Sys2Proof.Machine

section

-- One theorem at a time: the kernel evaluates most of them, and theorems that wait for it each hold a thread.
set_option Elab.async false

/-! ## Helpers -/

/-- The data field of the 16-byte key of vectors V1 and V2. -/
def k128 : BitVec 256 := 0x000102030405060708090a0b0c0d0e0f00000000000000000000000000000000#256

/-- The data field of the 24-byte key of vector V3. -/
def k192 : BitVec 256 := 0x000102030405060708090a0b0c0d0e0f10111213141516170000000000000000#256

/-- The data field of the 32-byte key of vector V4. -/
def k256 : BitVec 256 := 0x000102030405060708090a0b0c0d0e0f101112131415161718191a1b1c1d1e1f#256

/-- The data field with the plaintext of vector V1. -/
def plain : BitVec 256 := 0x00112233445566778899aabbccddeeff00000000000000000000000000000000#256

/-- The data field with the ciphertext of vector V1. -/
def cipherData : BitVec 256 := 0x69c4e0d86a7b0430d8cdb78070b4c55a00000000000000000000000000000000#256

/-- A grid written as the 16-byte block `StoreState` gives. -/
def gridOf (v : BitVec 128) : Grid := loadState (unpackBlock v)

/-- A word written as 8 hexadecimal digits. -/
def wordOf (v : BitVec 32) : Word :=
  ⟨v.extractLsb' 24 8, v.extractLsb' 16 8, v.extractLsb' 8 8, v.extractLsb' 0 8⟩

/-- The idle state after a successful `KEXP` of the key of V1, V3, V4. -/
def scheduled : State := kexpResult 16 k128 State.reset
def scheduled192 : State := kexpResult 24 k192 State.reset
def scheduled256 : State := kexpResult 32 k256 State.reset

/-- The sample with which a host presents the command `i`. -/
def sample (i : Instr) : Pins := ⟨false, true, i.opcode, i.lenField, i.dataField, 0⟩

/-- The state `s` with a host that presents `i` at the next edge and nothing afterwards. -/
def presenting (i : Instr) (s : State) : State := { s with inputs := [sample i] }

/-- The sample of an edge with `rst = 1` and a command presented. -/
def resetSample : Pins := ⟨true, true, 0b01#2, 16, k128, 0⟩

/-- Running states: just after the accept edge, and a later one with `RND` or `KIDX` given. -/
def kexpRunning : State := kexpAccept 16 k128 State.reset
def encRunning (r : BitVec 4) : State := { encAccept plain scheduled with rnd := r }
def decRunning (r : BitVec 4) : State := { decAccept cipherData scheduled with rnd := r }

/-- Whether an outcome is a next state that passes a check. -/
def nextIs (o : Host.Outcome State Fault Refusal) (check : State → Bool) : Bool :=
  match o with
  | .next t => check t
  | .fault _ => false
  | .refused _ => false

theorem stepsTo {o : Host.Outcome State Fault Refusal} (h : nextIs o (fun _ => true) = true) :
    ∃ t, o = .next t := by
  cases o with
  | next t => exact ⟨t, rfl⟩
  | fault _ => cases h
  | refused _ => cases h

/-! ## WellFormed smoke tests -/

theorem test_wf_rsvd : (Instr.rsvd 0 0).wellFormed = false := by decide
theorem test_wf_kexp : (Instr.kexp 15 k128).wellFormed = false ∧ (Instr.kexp 24 k192).wellFormed = true := by decide
theorem test_wf_enc : (Instr.enc 15 plain).wellFormed = false ∧ (Instr.enc 16 plain).wellFormed = true := by decide
theorem test_wf_dec : (Instr.dec 17 plain).wellFormed = false ∧ (Instr.dec 16 plain).wellFormed = true := by decide

theorem test_wf_line_length : (CommandLine.mk .kexp 64 []).wellFormed = false := by decide
theorem test_wf_line_bytes : (CommandLine.mk .kexp 32 (List.replicate 33 0)).wellFormed = false := by decide

theorem test_wf_pseudo :
    (PseudoCommand.kexp128 (List.replicate 15 0)).wellFormed = false ∧
    (PseudoCommand.kexp192 (List.replicate 16 0)).wellFormed = false ∧
    (PseudoCommand.kexp256 (List.replicate 24 0)).wellFormed = false ∧
    (PseudoCommand.encb (List.replicate 17 0)).wellFormed = false ∧
    (PseudoCommand.decb []).wellFormed = false := by decide

theorem test_wf_action :
    (HostAction.ksrd 64).wellFormed = false ∧
    (HostAction.command ⟨.enc, 64, []⟩).wellFormed = false ∧
    (HostAction.pseudo (.encb [])).wellFormed = false ∧
    HostAction.wait.wellFormed = true := by decide

/-- A line that is not well formed stands for no command. -/
theorem test_wf_no_command :
    (CommandLine.mk .kexp 64 []).toInstr = none ∧ (PseudoCommand.encb [0]).toInstr = none := by decide

/-! ## Decoding: words written out from rules R61, R62, R66, R67 -/

theorem test_decode_rsvd :
    decode 0x10aa000000000000000000000000000000000000000000000000000000000000bb#264 =
      .rsvd 16 0xaa000000000000000000000000000000000000000000000000000000000000bb#256 := by decide +kernel

theorem test_decode_kexp :
    decode 0x50000102030405060708090a0b0c0d0e0f00000000000000000000000000000000#264 = .kexp 16 k128 := by
  decide +kernel

theorem test_decode_enc :
    decode 0x9000112233445566778899aabbccddeeff00000000000000000000000000000000#264 = .enc 16 plain := by
  decide +kernel

theorem test_decode_dec :
    decode 0xd069c4e0d86a7b0430d8cdb78070b4c55a00000000000000000000000000000000#264 = .dec 16 cipherData := by
  decide +kernel

/-- The header bytes of rule R67 and of the error cases: `KEXP 15` 4F, `KEXP 20` 54, `ENC 15` 8F. -/
theorem test_encode_headers :
    (encode (.kexp 16 0)).header = 0x50 ∧ (encode (.kexp 24 0)).header = 0x58 ∧
    (encode (.kexp 32 0)).header = 0x60 ∧ (encode (.enc 16 0)).header = 0x90 ∧
    (encode (.dec 16 0)).header = 0xd0 ∧ (encode (.kexp 15 0)).header = 0x4f ∧
    (encode (.kexp 20 0)).header = 0x54 ∧ (encode (.enc 15 0)).header = 0x8f := by decide +kernel

theorem test_encode_kexp192 :
    encode (.kexp 24 k192) =
      0x58000102030405060708090a0b0c0d0e0f10111213141516170000000000000000#264 := by decide +kernel

/-- The table numbers the one 264-bit word; the two top bits are the opcode. -/
theorem test_decodeTableWord : decodeTableWord 264 (2 ^ 263) = some (.enc 0 0) := by decide +kernel

/-- The example line of rule R66, and a `KSRD`. -/
theorem test_readLine :
    (match readLine "KEXP 16, 000102030405060708090a0b0c0d0e0f".toList with
      | some (.command c) => c.toInstr
      | _ => none) = some (.kexp 16 k128) ∧
    readLine "KSRD 59".toList = some (.ksrd 59) ∧ readLine "KEXP 16, 0".toList = none := by decide +kernel

/-! ## The functions, on values of spec/95_test_vectors.md and of the rules -/

/-- Vectors V8 and V9. -/
theorem test_mulPoly : mulPoly 0x57 0x83 = 0xc1 ∧ mulPoly 0x57 0x13 = 0xfe ∧ xtime 0x80 = 0x1b := by
  decide +kernel

/-- Vector V10. -/
theorem test_tables : sbox 0x53 = 0xed ∧ sbox 0x00 = 0x63 ∧ invSbox 0x63 = 0x00 ∧ rc 10 = 0x36 := by
  decide +kernel

/-- Round 1 of vector V1, taken apart. -/
theorem test_round_one :
    subBytes (gridOf 0x00102030405060708090a0b0c0d0e0f0#128) = gridOf 0x63cab7040953d051cd60e0e7ba70e18c#128 ∧
    shiftRows (gridOf 0x63cab7040953d051cd60e0e7ba70e18c#128) = gridOf 0x6353e08c0960e104cd70b751bacad0e7#128 ∧
    mixColumns (gridOf 0x6353e08c0960e104cd70b751bacad0e7#128) = gridOf 0x5f72641557f5bc92f7be3b291db9f91a#128 ∧
    addRoundKey (gridOf 0x5f72641557f5bc92f7be3b291db9f91a#128)
        (unpackRoundKey 0xd6aa74fdd2af72fadaa678f1d6ab76fe#128) =
      gridOf 0x89d810e8855ace682d1843d8cb128fe4#128 := by decide +kernel

/-- InvRound 1 of vector V5, taken apart. -/
theorem test_invRound_one :
    invShiftRows (gridOf 0x7ad5fda789ef4e272bca100b3d9ff59f#128) = gridOf 0x7a9f102789d5f50b2beffd9f3dca4ea7#128 ∧
    invSubBytes (gridOf 0x7a9f102789d5f50b2beffd9f3dca4ea7#128) = gridOf 0xbd6e7c3df2b5779e0b61216e8b10b689#128 ∧
    invMixColumns (gridOf 0xe9f74eec023020f61bf2ccf2353c21c7#128) =
      gridOf 0x54d990a16ba09ab596bbf40ea111702f#128 := by decide +kernel

/-- The three branches of `Temp` (vectors V2, V3, V4). -/
theorem test_keyTemp :
    keyTemp 4 4 (wordOf 0x0c0d0e0f) = wordOf 0xd6ab76fe ∧
    keyTemp 10 6 (wordOf 0x5847f0fa) = wordOf 0x5847f0fa ∧
    keyTemp 12 8 (wordOf 0xa572c09c) = wordOf 0x0640bade := by decide +kernel

/-- The last word of the schedule of vector V4. -/
theorem test_expandKey :
    (expandKey (keyBytes k256 32)).getD 59 Word.zero = wordOf 0x6d68de36 := by decide +kernel

/-- The known answers of vectors V1 and V3. -/
theorem test_encrypt :
    packBlock (encrypt (dataBlock plain) (expandKey (keyBytes k128 16)) 10) =
      0x69c4e0d86a7b0430d8cdb78070b4c55a#128 ∧
    packBlock (encrypt (dataBlock plain) (expandKey (keyBytes k192 24)) 12) =
      0xdda97ca4864cdfe06eaf70a0ec0d7191#128 := by decide +kernel

/-- Vector V5. -/
theorem test_decrypt :
    packBlock (decrypt (dataBlock cipherData) (expandKey (keyBytes k128 16)) 10) =
      0x00112233445566778899aabbccddeeff#128 := by decide +kernel

/-! ## The instructions, one step each -/

/-- Program P2, action 4: a good length and data, and it fails on the opcode alone. -/
theorem test_rsvd :
    nextIs (exec (.rsvd 16 plain) scheduled) (fun t =>
      t.rspValid && decide (t.rspErr = 3) && decide (t.rspData = 0) && t.ksValid) = true := by decide +kernel

/-- The accept step of the `KEXP` of vector V2, over a longer schedule that was there before. -/
theorem test_kexp_accept :
    nextIs (exec (.kexp 16 k128) scheduled256) (fun t =>
      decide (memRead t.w 3 = wordOf 0x0c0d0e0f) && decide (t.nk = 4) && decide (t.kidx = 4) && !t.ksValid &&
        decide (memRead t.w 59 = wordOf 0x6d68de36)) = true := by decide +kernel

/-- The first word step of the `KEXP` of vector V2. -/
theorem test_kexp_step :
    nextIs (step kexpRunning) (fun t =>
      decide (memRead t.w 4 = wordOf 0xd6aa74fd) && decide (t.kidx = 5) && decide (t.phase = .kexpRun)) = true := by
  decide +kernel

/-- Vector V6: `ENC 15` is a length error even though no schedule is held. -/
theorem test_enc_error_order :
    nextIs (exec (.enc 15 plain) State.reset) (fun t => t.rspValid && decide (t.rspErr = 2)) = true := by
  decide +kernel

/-- The step of vector V1 with `RND = 0`. -/
theorem test_enc_step :
    nextIs (step (encRunning 0)) (fun t =>
      decide (t.s = gridOf 0x00102030405060708090a0b0c0d0e0f0#128) && decide (t.rnd = 1)) = true := by
  decide +kernel

/-- Program P2, action 2: no schedule. -/
theorem test_dec_no_schedule :
    nextIs (exec (.dec 16 cipherData) State.reset) (fun t => t.rspValid && decide (t.rspErr = 4)) = true := by
  decide +kernel

/-- The step of vector V5 with `RND = 0`, which adds round key 10. -/
theorem test_dec_step :
    nextIs (step (decRunning 0)) (fun t =>
      decide (t.s = gridOf 0x7ad5fda789ef4e272bca100b3d9ff59f#128) && decide (t.rnd = 1)) = true := by
  decide +kernel

/-- Program P1, actions on the read port: a word of the schedule, and one above it. -/
theorem test_read_port :
    ksWord scheduled 43 = 0x4d2b30c5#32 ∧ ksWordValid scheduled 44 = false ∧ ksWord scheduled 63 = 0 := by
  decide +kernel

/-- A placed command runs at the very next step, from reset. -/
theorem test_withFetchWord :
    nextIs (step (State.reset.withFetchWord 264 (2 ^ 262))) (fun t =>
      t.rspValid && decide (t.rspErr = 1) && decide (t.inputs = [])) = true := by decide +kernel

/-! ## The states of the witnesses are legal -/

theorem presenting_presents {i : Instr} {s : State} (h : s.phase = .idle) : (presenting i s).presents i := by
  refine ⟨h, rfl, rfl, ?_⟩
  cases i <;> rfl

theorem presenting_noReset (i : Instr) (s : State) (n : Nat) : (presenting i s).noReset n := fun p hp => by
  have h := List.mem_of_mem_take hp
  simp only [presenting, List.mem_singleton] at h
  rw [h]; rfl

/-- The result of a successful `KEXP` is a legal state. -/
theorem kexpResult_inv {len : BitVec 6} (h : len.toNat ∈ keyLengths) (data : BitVec 256) (s : State) :
    (kexpResult len data s).Inv := by
  have hl : (keyBytes data len.toNat).length = len.toNat := keyBytes_length _ _
  have hx := expandKey_length (keyBytes data len.toNat)
  rw [hl] at hx
  have hd : Config.ksDepth = 60 := rfl
  have hlen : (expandKey (keyBytes data len.toNat)).length = nwOf (len.toNat / 4) ∧
      nwOf (len.toNat / 4) ≤ 60 := by
    rcases keyLengths_cases h with e | e | e <;> rw [e] at hx ⊢ <;> exact ⟨hx, by decide⟩
  have hnk : (kexpResult len data s).nk.toNat = len.toNat / 4 := by
    rcases keyLengths_cases h with e | e | e <;> simp [kexpResult, e]
  refine ⟨scheduleMemory_wf (by omega), ⟨Nat.zero_le 4, fun _ => rfl, fun h => nomatch h⟩, rfl, rfl, rfl,
    .inr ⟨rfl, ?_, keyBytes data len.toNat, ?_, fun i _ => memRead_scheduleMemory _ i, fun i hi _ => ?_⟩⟩
  · rw [State.keySize, hnk]; rcases keyLengths_cases h with e | e | e <;> rw [e] <;> decide
  · rw [hnk, hl]; rcases keyLengths_cases h with e | e | e <;> rw [e]
  · rw [State.nw, hnk] at hi
    exact (memRead_scheduleMemory _ i).trans (List.getD_eq_default _ _ (by omega))

theorem scheduled_inv : scheduled.Inv := kexpResult_inv (by decide) _ _

/-- The invariant does not speak of the host's samples. -/
theorem inputs_inv {s : State} (later : List Pins) (h : s.Inv) : ({ s with inputs := later } : State).Inv := h

theorem presenting_inv {s : State} (i : Instr) (h : s.Inv) : (presenting i s).Inv := inputs_inv _ h

/-- The accept step of a block command keeps a legal state legal, at every count of `RND` up to `NR`. -/
theorem blockAccept_inv {s : State} (hs : s.Inv) (hv : s.ksValid = true) (hp : s.phase = .idle)
    (data : BitVec 256) (r : BitVec 4) (hr : r.toNat ≤ s.nr) :
    ({ encAccept data s with rnd := r } : State).Inv ∧ ({ decAccept data s with rnd := r } : State).Inv := by
  obtain ⟨h1, -, h3⟩ := hs
  simp only [hp] at h3
  obtain ⟨-, hk, -, h | h⟩ := h3
  · rw [hv] at h; exact absurd h.1 (by decide)
  · exact ⟨⟨h1, ⟨Nat.zero_le 4, fun _ => rfl, fun _ => ⟨rfl, rfl, rfl⟩⟩, hv, h.2, ⟨rfl, rfl, rfl⟩, hk, hr⟩,
      ⟨h1, ⟨Nat.zero_le 4, fun _ => rfl, fun _ => ⟨rfl, rfl, rfl⟩⟩, hv, h.2, ⟨rfl, rfl, rfl⟩, hk, hr⟩⟩

theorem encRunning_inv (r : BitVec 4) (hr : r.toNat ≤ 10) : (encRunning r).Inv :=
  (blockAccept_inv scheduled_inv rfl rfl plain r hr).1

theorem decRunning_inv (r : BitVec 4) (hr : r.toNat ≤ 10) : (decRunning r).Inv :=
  (blockAccept_inv scheduled_inv rfl rfl cipherData r hr).2

theorem kexpRunning_inv : kexpRunning.Inv := by
  refine ⟨by decide +kernel, ⟨by decide, fun _ => rfl, fun _ => ⟨rfl, rfl, rfl⟩⟩, by decide, rfl,
    ⟨rfl, rfl, rfl⟩, rfl, rfl, by decide, by decide, keyBytes k128 16, by decide, ?_⟩
  intro i hi
  have hi : i < 4 := hi
  interval_cases i <;> decide +kernel

theorem reset_inv : State.reset.Inv := by
  refine ⟨rfl, ⟨by decide, fun _ => rfl, fun _ => ⟨rfl, rfl, rfl⟩⟩, rfl, rfl, rfl, .inl ⟨rfl, rfl, fun i _ => rfl⟩⟩

theorem quiet_noReset {s : State} (h : s.inputs = []) (n : Nat) : s.noReset n := fun p hp => by
  have hm := List.mem_of_mem_take hp
  rw [h] at hm
  exact absurd hm List.not_mem_nil

/-- The data field of `k128` with other bytes in the lanes a 16-byte command ignores. -/
def k128Lanes : BitVec 256 := 0x000102030405060708090a0b0c0d0e0fffffffffffffffffffffffffffffffff#256

/-! ## Witnesses: for every obligation with hypotheses, a state and operands that meet them -/

theorem witness_ResetStateHoldsSpecValues : 0 < 60 ∧ 59 < 60 := by decide

theorem witness_ResetEdgeClearsEverything :
    ({ encRunning 5 with inputs := [resetSample] } : State).pins.rst = true := rfl

theorem witness_AcceptEdgeRunsDecodedCommand :
    let s := presenting (.enc 16 plain) scheduled
    s.phase = .idle ∧ s.pins.rst = false ∧ s.pins.cmdValid = true := ⟨rfl, rfl, rfl⟩

theorem witness_EveryEdgeUsesUpOneSample : ∃ t, step (presenting (.enc 16 plain) scheduled) = .next t :=
  stepsTo (by decide +kernel)

theorem witness_IdleEdgeWithoutCommandKeepsState :
    scheduled.phase = .idle ∧ scheduled.pins.rst = false ∧ scheduled.pins.cmdValid = false := ⟨rfl, rfl, rfl⟩

/-- Each of the three cases: a running phase, no command from either host, the same command. -/
theorem witness_UnreadInputsHaveNoEffect :
    let p := sample (.kexp 16 k128)
    let q : Pins := { Pins.quiet with cmdOp := 3, ksIdx := 63 }
    (p.rst = q.rst ∧ (encRunning 3).phase ≠ .idle) ∧
    (q.rst = Pins.quiet.rst ∧ q.cmdValid = false ∧ Pins.quiet.cmdValid = false ∧ q ≠ Pins.quiet) ∧
    (p.rst = ({ p with ksIdx := 63 } : Pins).rst ∧ p.cmdOp = ({ p with ksIdx := 63 } : Pins).cmdOp ∧
      p ≠ { p with ksIdx := 63 }) := by decide +kernel

theorem witness_OpcodeFieldSelectsCommand :
    (acceptError (.kexp 24 k192) State.reset = none ∧ ∃ t, exec (.kexp 24 k192) State.reset = .next t) ∧
    (acceptError (.enc 16 plain) scheduled = none ∧ ∃ t, exec (.enc 16 plain) scheduled = .next t) ∧
    (acceptError (.dec 16 plain) scheduled = none ∧ ∃ t, exec (.dec 16 plain) scheduled = .next t) :=
  ⟨⟨rfl, _, rfl⟩, ⟨rfl, _, rfl⟩, ⟨rfl, _, rfl⟩⟩

theorem witness_EveryWordEncodesOneCommand :
    encode (.kexp 20 0) = 0x540000000000000000000000000000000000000000000000000000000000000000#264 := by
  decide +kernel

/-- Different data that agree in the lanes of a 16-byte command; a length `KEXP` refuses; both ways a block
command fails. -/
theorem witness_IgnoredDataLanesHaveNoEffect :
    k128 ≠ k128Lanes ∧ (∀ i, i < (16 : BitVec 6).toNat → i < 32 → dataByte k128 i = dataByte k128Lanes i) ∧
    (∀ i, i < 16 → dataByte k128 i = dataByte k128Lanes i) ∧
    (15 : BitVec 6).toNat ∉ [16, 24, 32] ∧ (17 : BitVec 6).toNat ≠ 16 ∧ State.reset.ksValid = false := by
  decide +kernel

theorem witness_RsvdRaisesIllegalCommand : (sample (.rsvd 63 k128)).cmdOp = 0b00#2 := rfl

theorem witness_WrongKeyLengthRaisesError :
    (0 : BitVec 6).toNat ∉ [16, 24, 32] ∧ (15 : BitVec 6).toNat ∉ [16, 24, 32] ∧
    (33 : BitVec 6).toNat ∉ [16, 24, 32] ∧ (63 : BitVec 6).toNat ∉ [16, 24, 32] ∧
    ∃ t, exec (.kexp 20 k192) scheduled = .next t ∧ t.rspErr = 1 :=
  ⟨by decide, by decide, by decide, by decide, _, rfl, rfl⟩

theorem witness_WrongBlockLengthRaisesError :
    (0 : BitVec 6).toNat ≠ 16 ∧ (15 : BitVec 6).toNat ≠ 16 ∧ (17 : BitVec 6).toNat ≠ 16 ∧
    (63 : BitVec 6).toNat ≠ 16 ∧ ∃ t, exec (.kexp 15 k128) State.reset = .next t :=
  ⟨by decide, by decide, by decide, by decide, _, rfl⟩

theorem witness_BlockWithoutScheduleRaisesError :
    (16 : BitVec 6).toNat = 16 ∧ State.reset.ksValid = false := by decide

theorem witness_AcceptReportsFirstError : resetSample.rst = true := rfl

/-- One for each of the four errors. -/
theorem witness_ErrorReplacesOnlyResponse :
    ((presenting (.kexp 15 k128) scheduled).presents (.kexp 15 k128) ∧
      acceptError (.kexp 15 k128) (presenting (.kexp 15 k128) scheduled) = some .invalidKeyLength) ∧
    ((presenting (.enc 15 plain) scheduled).presents (.enc 15 plain) ∧
      acceptError (.enc 15 plain) (presenting (.enc 15 plain) scheduled) = some .invalidBlockLength) ∧
    ((presenting (.rsvd 16 plain) scheduled).presents (.rsvd 16 plain) ∧
      acceptError (.rsvd 16 plain) (presenting (.rsvd 16 plain) scheduled) = some .illegalCommand) ∧
    ((presenting (.dec 16 plain) State.reset).presents (.dec 16 plain) ∧
      acceptError (.dec 16 plain) (presenting (.dec 16 plain) State.reset) = some .noKeySchedule) :=
  ⟨⟨presenting_presents rfl, rfl⟩, ⟨presenting_presents rfl, rfl⟩, ⟨presenting_presents rfl, rfl⟩,
    ⟨presenting_presents rfl, rfl⟩⟩

/-- Each length; the last word of a 32-byte key; the first cell above a 16-byte key. -/
theorem witness_KexpAcceptStoresKey :
    (16 : BitVec 6).toNat ∈ [16, 24, 32] ∧ (24 : BitVec 6).toNat ∈ [16, 24, 32] ∧
    (32 : BitVec 6).toNat ∈ [16, 24, 32] ∧ 7 < (32 : BitVec 6).toNat / 4 ∧ (16 : BitVec 6).toNat ≤ 16 := by decide

theorem witness_BlockAcceptLoadsState : (16 : BitVec 6).toNat = 16 ∧ scheduled.ksValid = true := ⟨rfl, rfl⟩

/-- The first word step, the last one, and the finishing step. -/
theorem witness_KexpStepFollowsRecurrence :
    let s := kexpRunning
    let l : State := { s with kidx := 43 }
    let f : State := { s with kidx := 44 }
    (s.phase = .kexpRun ∧ s.pins.rst = false ∧ s.keySize ∧ s.nk.toNat ≤ s.kidx.toNat ∧ s.kidx.toNat < s.nw) ∧
    (l.keySize ∧ l.nk.toNat ≤ l.kidx.toNat ∧ l.kidx.toNat < l.nw) ∧
    (f.keySize ∧ f.nk.toNat ≤ f.kidx.toNat ∧ f.kidx.toNat = f.nw ∧ f.nw ≤ 44 ∧ 175 < 4 * f.nw) :=
  ⟨⟨rfl, rfl, by decide, by decide, by decide⟩, ⟨by decide, by decide, by decide⟩,
    ⟨by decide, by decide, rfl, by decide, by decide⟩⟩

/-- The first step, the first and the last round, and the final round. -/
theorem witness_EncStepRunsOneRound :
    ((encRunning 0).phase = .encRun ∧ (encRunning 0).pins.rst = false ∧ (encRunning 0).keySize ∧
      (encRunning 0).rnd.toNat = 0) ∧
    ((encRunning 1).keySize ∧ (encRunning 1).rnd.toNat < (encRunning 1).nr) ∧
    ((encRunning 9).keySize ∧ (encRunning 9).rnd.toNat < (encRunning 9).nr) ∧
    ((encRunning 10).keySize ∧ ¬ (encRunning 10).rnd.toNat < (encRunning 10).nr) :=
  ⟨⟨rfl, rfl, by decide, rfl⟩, ⟨by decide, by decide⟩, ⟨by decide, by decide⟩, by decide, by decide⟩

theorem witness_DecStepRunsOneInverseRound :
    ((decRunning 0).phase = .decRun ∧ (decRunning 0).pins.rst = false ∧ (decRunning 0).keySize ∧
      (decRunning 0).rnd.toNat = 0) ∧
    ((decRunning 1).keySize ∧ (decRunning 1).rnd.toNat < (decRunning 1).nr) ∧
    ((decRunning 9).keySize ∧ (decRunning 9).rnd.toNat < (decRunning 9).nr) ∧
    ((decRunning 10).keySize ∧ ¬ (decRunning 10).rnd.toNat < (decRunning 10).nr) :=
  ⟨⟨rfl, rfl, by decide, rfl⟩, ⟨by decide, by decide⟩, ⟨by decide, by decide⟩, by decide, by decide⟩

/-- A wrong length; and, for each key size and whatever the number of edges is, a state that meets all the
hypotheses. -/
theorem witness_KexpEndsInExpandedSchedule (n : Nat) :
    (31 : BitVec 6).toNat ∉ [16, 24, 32] ∧
    (kexpRunning.phase = .kexpRun ∧ ({ kexpRunning with inputs := [resetSample] } : State).pins.rst = true) ∧
    ((presenting (.kexp 16 k128) State.reset).Inv ∧ (16 : BitVec 6).toNat = 4 * 4 ∧
      (presenting (.kexp 16 k128) State.reset).presents (.kexp 16 k128) ∧
      (presenting (.kexp 16 k128) State.reset).noReset (n + 1)) ∧
    ((presenting (.kexp 24 k192) scheduled).Inv ∧ (24 : BitVec 6).toNat = 4 * 6 ∧
      (presenting (.kexp 24 k192) scheduled).presents (.kexp 24 k192) ∧
      (presenting (.kexp 24 k192) scheduled).noReset (n + 1)) ∧
    ((presenting (.kexp 32 k256) scheduled).Inv ∧ (32 : BitVec 6).toNat = 4 * 8 ∧
      (presenting (.kexp 32 k256) scheduled).presents (.kexp 32 k256) ∧
      (presenting (.kexp 32 k256) scheduled).noReset (n + 1)) :=
  ⟨by decide, ⟨rfl, rfl⟩,
    ⟨presenting_inv _ reset_inv, rfl, presenting_presents rfl, presenting_noReset _ _ _⟩,
    ⟨presenting_inv _ scheduled_inv, rfl, presenting_presents rfl, presenting_noReset _ _ _⟩,
    ⟨presenting_inv _ scheduled_inv, rfl, presenting_presents rfl, presenting_noReset _ _ _⟩⟩

/-- The hypotheses on the state of the statements about complete `ENC` and `DEC` runs. -/
def meetsBlockPremises (nr : Nat) (i : Instr) (n : Nat) (s : State) : Prop :=
  s.keySize ∧ s.nr = nr ∧ s.ksValid = true ∧ s.presents i ∧ s.noReset (n + 1)

/-- Both errors; and a state for each number of rounds, whatever the number of edges is. -/
theorem witness_EncEndsInEncryptedBlock (n : Nat) :
    (15 : BitVec 6).toNat ≠ 16 ∧ State.reset.ksValid = false ∧
    ((encRunning 5).phase = .encRun ∧ ({ encRunning 5 with inputs := [resetSample] } : State).pins.rst = true) ∧
    meetsBlockPremises 10 (.enc 16 plain) n (presenting (.enc 16 plain) scheduled) ∧
    meetsBlockPremises 12 (.enc 16 plain) n (presenting (.enc 16 plain) scheduled192) ∧
    meetsBlockPremises 14 (.enc 16 plain) n (presenting (.enc 16 plain) scheduled256) :=
  ⟨by decide, rfl, ⟨rfl, rfl⟩,
    ⟨by decide, rfl, rfl, presenting_presents rfl, presenting_noReset _ _ _⟩,
    ⟨by decide, rfl, rfl, presenting_presents rfl, presenting_noReset _ _ _⟩,
    ⟨by decide, rfl, rfl, presenting_presents rfl, presenting_noReset _ _ _⟩⟩

theorem witness_DecEndsInDecryptedBlock (n : Nat) :
    (17 : BitVec 6).toNat ≠ 16 ∧ State.reset.ksValid = false ∧
    ((decRunning 5).phase = .decRun ∧ ({ decRunning 5 with inputs := [resetSample] } : State).pins.rst = true) ∧
    meetsBlockPremises 10 (.dec 16 plain) n (presenting (.dec 16 plain) scheduled) ∧
    meetsBlockPremises 12 (.dec 16 plain) n (presenting (.dec 16 plain) scheduled192) ∧
    meetsBlockPremises 14 (.dec 16 plain) n (presenting (.dec 16 plain) scheduled256) :=
  ⟨by decide, rfl, ⟨rfl, rfl⟩,
    ⟨by decide, rfl, rfl, presenting_presents rfl, presenting_noReset _ _ _⟩,
    ⟨by decide, rfl, rfl, presenting_presents rfl, presenting_noReset _ _ _⟩,
    ⟨by decide, rfl, rfl, presenting_presents rfl, presenting_noReset _ _ _⟩⟩

/-- Two different legal idle states, and data that differ in ignored lanes. -/
theorem witness_KexpForgetsOldState (n : Nat) :
    let s := presenting (.kexp 16 k128) State.reset
    let t := presenting (.kexp 16 k128Lanes) (kexpResult 32 k256 State.reset)
    s.Inv ∧ t.Inv ∧ s.nk ≠ t.nk ∧ (16 : BitVec 6).toNat = 4 * 4 ∧
      (∀ i, i < 4 * 4 → dataByte k128 i = dataByte k128Lanes i) ∧ s.presents (.kexp 16 k128) ∧
      t.presents (.kexp 16 k128Lanes) ∧ s.noReset (n + 1) ∧ t.noReset (n + 1) :=
  ⟨presenting_inv _ reset_inv, presenting_inv _ (kexpResult_inv (by decide) _ _), by decide, rfl,
    by decide +kernel, presenting_presents rfl, presenting_presents rfl, presenting_noReset _ _ _,
    presenting_noReset _ _ _⟩

/-- For every command, a legal state that presents it (the number of edges does not matter). -/
theorem witness_CommandRunReachesAtomicResult (i : Instr) (n : Nat) :
    (presenting i scheduled).Inv ∧ (presenting i scheduled).presents i ∧ (presenting i scheduled).noReset n :=
  ⟨presenting_inv _ scheduled_inv, presenting_presents rfl, presenting_noReset _ _ _⟩

theorem witness_AnyLatencyGivesSameResult (l : Config.Latency) (i : Instr) :
    let s := presenting i scheduled
    s.Inv ∧ s.presents i ∧ s.noReset (commandLatency l i s + 1) ∧
      s.noReset (commandLatency Config.Latency.reference i s + 1) :=
  ⟨presenting_inv _ scheduled_inv, presenting_presents rfl, presenting_noReset _ _ _, presenting_noReset _ _ _⟩

theorem witness_PortsCannotTellAtomicFromSequencer :
    let s : State := { scheduled with inputs := [sample (.enc 16 plain), Pins.quiet, resetSample] }
    s.Inv ∧ s.phase = .idle := ⟨inputs_inv _ scheduled_inv, rfl⟩

theorem witness_ReferenceTimingTable : acceptError (.rsvd 0 0) State.reset = some .illegalCommand := rfl

/-- A legal state of every phase, and one that is reset. -/
theorem witness_StepKeepsStateInvariant :
    ((presenting (.kexp 16 k128) State.reset).Inv ∧
      ∃ t, step (presenting (.kexp 16 k128) State.reset) = .next t) ∧
    (kexpRunning.Inv ∧ ∃ t, step kexpRunning = .next t) ∧
    ((encRunning 10).Inv ∧ ∃ t, step (encRunning 10) = .next t) ∧
    ((decRunning 1).Inv ∧ ∃ t, step (decRunning 1) = .next t) :=
  ⟨⟨presenting_inv _ reset_inv, stepsTo (by decide +kernel)⟩,
    ⟨kexpRunning_inv, stepsTo (by decide +kernel)⟩,
    ⟨encRunning_inv 10 (by decide), stepsTo (by decide +kernel)⟩,
    ⟨decRunning_inv 1 (by decide), stepsTo (by decide +kernel)⟩⟩

theorem witness_LegalStatesNeverStop :
    State.reset.Inv ∧ kexpRunning.Inv ∧ (encRunning 0).Inv ∧ (decRunning 10).Inv :=
  ⟨reset_inv, kexpRunning_inv, encRunning_inv 0 (by decide), decRunning_inv 10 (by decide)⟩

theorem witness_RunningCommandEnds (n : Nat) :
    (kexpRunning.Inv ∧ kexpRunning.phase ≠ .idle ∧ kexpRunning.noReset n) ∧
    ((encRunning 0).Inv ∧ (encRunning 0).phase ≠ .idle ∧ (encRunning 0).noReset n) ∧
    ((decRunning 0).Inv ∧ (decRunning 0).phase ≠ .idle ∧ (decRunning 0).noReset n) :=
  ⟨⟨kexpRunning_inv, by decide, quiet_noReset rfl n⟩, ⟨encRunning_inv 0 (by decide), by decide, quiet_noReset rfl n⟩,
    ⟨decRunning_inv 0 (by decide), by decide, quiet_noReset rfl n⟩⟩

/-- A step that none of the first three cases covers: an encryption round. -/
theorem witness_OnlyKexpAndResetWriteSchedule :
    (∃ t, step (encRunning 1) = .next t) ∧ (encRunning 1).pins.rst = false ∧ (encRunning 1).phase = .encRun :=
  ⟨stepsTo (by decide +kernel), rfl, rfl⟩

/-- A step of each row: a reset, an accepted command, an error, and a step of each run. -/
theorem witness_PhaseTransitions :
    (∃ t, step { encRunning 5 with inputs := [resetSample] } = .next t) ∧
    (∃ t, step (presenting (.dec 16 plain) scheduled) = .next t) ∧
    (∃ t, step (presenting (.dec 16 plain) State.reset) = .next t) ∧
    (∃ t, step kexpRunning = .next t) ∧ (∃ t, step (encRunning 10) = .next t) ∧
    (∃ t, step (decRunning 9) = .next t) :=
  ⟨stepsTo (by decide +kernel), stepsTo (by decide +kernel), stepsTo (by decide +kernel),
    stepsTo (by decide +kernel), stepsTo (by decide +kernel), stepsTo (by decide +kernel)⟩

theorem witness_ResponseRegistersChangeOnlyAsTabled :
    (∃ t, step { encRunning 5 with inputs := [resetSample] } = .next t) ∧
    (∃ t, step (presenting (.kexp 17 k128) scheduled) = .next t) ∧ (∃ t, step scheduled = .next t) ∧
    (∃ t, step { kexpRunning with kidx := 44 } = .next t) ∧ (∃ t, step (encRunning 10) = .next t) ∧
    (∃ t, step (decRunning 10) = .next t) :=
  ⟨stepsTo (by decide +kernel), stepsTo (by decide +kernel), stepsTo (by decide +kernel),
    stepsTo (by decide +kernel), stepsTo (by decide +kernel), stepsTo (by decide +kernel)⟩

theorem witness_RegistersStayInRange :
    State.reset.Inv ∧ kexpRunning.Inv ∧ (encRunning 10).Inv ∧ (decRunning 10).Inv ∧
    (State.reset.phase = .idle ∧ kexpRunning.phase = .kexpRun ∧ (encRunning 10).phase = .encRun ∧
      (decRunning 10).phase = .decRun) :=
  ⟨reset_inv, kexpRunning_inv, encRunning_inv 10 (by decide), decRunning_inv 10 (by decide), rfl, rfl, rfl, rfl⟩

/-- No schedule; the last word of one, the first index above it, and an index that selects no word. -/
theorem witness_OutputPortsShowRegisters :
    State.reset.nk = 0 ∧ State.reset.ksValid = false ∧ scheduled.keySize ∧ scheduled.ksValid = true ∧
    (43 : BitVec 6).toNat < scheduled.nw ∧ scheduled.nw ≤ (44 : BitVec 6).toNat ∧ 60 ≤ (60 : BitVec 6).toNat ∧
    scheduled256.keySize ∧ (59 : BitVec 6).toNat < scheduled256.nw ∧
    kexpRunning.keySize ∧ kexpRunning.Inv ∧ kexpRunning.phase = .kexpRun :=
  ⟨rfl, rfl, by decide, rfl, by decide, by decide, by decide, by decide, by decide, by decide, kexpRunning_inv, rfl⟩

theorem witness_RunningCommandIsHidden :
    (kexpRunning.Inv ∧ kexpRunning.phase = .kexpRun) ∧
    ((encRunning 10).Inv ∧ (encRunning 10).phase ≠ .idle ∧ (encRunning 10).phase ≠ .kexpRun ∧
      (encRunning 10).pins.rst = false ∧ ∃ t, step (encRunning 10) = .next t) :=
  ⟨⟨kexpRunning_inv, rfl⟩, encRunning_inv 10 (by decide), by decide, by decide, rfl, stepsTo (by decide +kernel)⟩

theorem witness_KeyBusCutIntoWords :
    (16 : BitVec 6).toNat ∈ [16, 24, 32] ∧ 3 < (16 : BitVec 6).toNat / 4 ∧
    (32 : BitVec 6).toNat ∈ [16, 24, 32] ∧ 7 < (32 : BitVec 6).toNat / 4 := by decide

theorem witness_MulPolyAssociativeWithInverses :
    (0x53#8 : Byte) ≠ 0x00 ∧ mulPoly 0x53 0xca = 0x01 := by decide +kernel

theorem witness_SboxIsAffineOfInverse : mulPoly 0x02 0x8d = 0x01 := by decide +kernel

theorem witness_XtimeDoublesInField : xtime 0x8d = xtime 0x8d := rfl

theorem witness_RoundConstantsByDoubling : 1 ≤ 1 ∧ 1 < 10 ∧ 9 < 10 := by decide

theorem witness_InvMixColumnsUndoesMixColumns :
    (gridOf 0xc6c6c6c601234567000000008899aabb#128).col 0 = ⟨0xc6, 0xc6, 0xc6, 0xc6⟩ ∧
    (gridOf 0xc6c6c6c601234567000000008899aabb#128).col 3 = ⟨0x88, 0x99, 0xaa, 0xbb⟩ := by decide +kernel

/-- A key of each length, the words where the clauses meet, and indices of the first two branches of `Temp`. -/
theorem witness_ExpandKeyFollowsRecurrence :
    (keyBytes k128 16).length = 4 * 4 ∧ (keyBytes k192 24).length = 4 * 6 ∧ (keyBytes k256 32).length = 4 * 8 ∧
    (8 ≤ 12 ∧ 12 < 4 * (8 + 7) ∧ 12 % 8 = 4 ∧ 40 < 4 * (4 + 7) ∧ 40 % 4 = 0) ∧
    (3 < 4 ∧ 4 ≤ 4 ∧ 43 < 4 * (4 + 7)) ∧ (7 < 8 ∧ 8 ≤ 8 ∧ 59 < 4 * (8 + 7)) := by decide

end

end Sys2Proof.Tests
end

section
/-!
SUPPORT. Runs of a command: the state after each edge of a `KEXP`, an `ENC` and a `DEC` in closed form, the idle state
the run of the reference sequencer ends in, and the run of the atomic core for any latency.
-/

namespace Sys2Proof.Machine

/-! ## Accepting a command: its error, its latency and its result -/

/-- The error, the latency and the result of a command do not depend on the samples to come. -/
@[simp] theorem acceptError_advance (i : Instr) (s : State) : acceptError i s.advance = acceptError i s := by
  cases i <;> rfl

@[simp] theorem commandLatency_advance (l : Config.Latency) (i : Instr) (s : State) :
    commandLatency l i s.advance = commandLatency l i s := by
  cases i <;> rfl

/-- Every command by its accept step: an error is answered at once; otherwise a run starts, and its result and
latency are those of its kind (rules R128, R142, R152, R166, R190). -/
theorem command_cases (i : Instr) (s : State) :
    (∃ e, acceptError i s = some e ∧ exec i s = .next (raiseError s e) ∧ commandResult i s = raiseError s e ∧
        ∀ l, commandLatency l i s = 0) ∨
      (∃ len data, i = .kexp len data ∧ len.toNat ∈ keyLengths ∧ exec i s = .next (kexpAccept len data s) ∧
        commandResult i s = kexpResult len data s ∧ ∀ l, commandLatency l i s = l.kexp (len.toNat / 4)) ∨
      (∃ len data, i = .enc len data ∧ s.ksValid = true ∧ exec i s = .next (encAccept data s) ∧
        commandResult i s = encResult data s ∧ ∀ l, commandLatency l i s = l.enc s.nr) ∨
      (∃ len data, i = .dec len data ∧ s.ksValid = true ∧ exec i s = .next (decAccept data s) ∧
        commandResult i s = decResult data s ∧ ∀ l, commandLatency l i s = l.dec s.nr) := by
  obtain ⟨e, he, hx⟩ | ⟨he, ⟨len, data, rfl, hl, hx⟩ | ⟨len, data, rfl, -, hv, hx⟩ | ⟨len, data, rfl, -, hv, hx⟩⟩ :=
    exec_cases i s
  · exact .inl ⟨e, he, hx, by simp [commandResult, he], by simp [commandLatency, he]⟩
  · exact .inr (.inl ⟨len, data, rfl, hl, hx, by simp [commandResult, he], by simp [commandLatency, he]⟩)
  · exact .inr (.inr (.inl ⟨len, data, rfl, hv, hx, by simp [commandResult, he], by simp [commandLatency, he]⟩))
  · exact .inr (.inr (.inr ⟨len, data, rfl, hv, hx, by simp [commandResult, he], by simp [commandLatency, he]⟩))

theorem commandResult_advance (i : Instr) (s : State) : commandResult i s.advance = (commandResult i s).advance := by
  simp only [commandResult, acceptError_advance]
  cases acceptError i s with
  | some e => rfl
  | none => cases i <;> rfl

@[simp] theorem commandResult_inputs (i : Instr) (s : State) : (commandResult i s).inputs = s.inputs := by
  obtain ⟨e, -, -, h, -⟩ | ⟨len, data, -, -, -, h, -⟩ | ⟨len, data, -, -, -, h, -⟩ | ⟨len, data, -, -, -, h, -⟩ :=
    command_cases i s <;> rw [h] <;> rfl

/-- The accept step does not read the samples to come. -/
theorem exec_advance {i : Instr} {s t : State} (h : exec i s = .next t) : exec i s.advance = .next t.advance := by
  cases i with
  | rsvd len data => cases h; rfl
  | kexp len data =>
    simp only [exec, execKexp] at h ⊢
    cases he : keyError len <;> simp only [he] at h ⊢ <;> cases h <;> rfl
  | enc len data =>
    simp only [exec, execEnc, advance_ksValid] at h ⊢
    cases he : blockError len s.ksValid <;> simp only [he] at h ⊢ <;> cases h <;> rfl
  | dec len data =>
    simp only [exec, execDec, advance_ksValid] at h ⊢
    cases he : blockError len s.ksValid <;> simp only [he] at h ⊢ <;> cases h <;> rfl

theorem step_accept_next {s t : State} {i : Instr} (hi : s.presents i) (h : exec i s = .next t) :
    step s = .next t.advance := (step_accept hi).trans (exec_advance h)

/-- A command leads from an idle state to an idle state with a response. -/
theorem commandResult_idle_response (i : Instr) {s : State} (hp : s.phase = .idle) :
    (commandResult i s).phase = .idle ∧ (commandResult i s).rspValid = true := by
  obtain ⟨e, -, -, h, -⟩ | ⟨len, data, -, -, -, h, -⟩ | ⟨len, data, -, -, -, h, -⟩ | ⟨len, data, -, -, -, h, -⟩ :=
    command_cases i s <;> rw [h]
  · exact ⟨hp, rfl⟩
  all_goals exact ⟨rfl, rfl⟩

/-! ## Legal idle states -/

/-- A legal idle state with a valid schedule holds one of a legal key size (rule R27). -/
theorem keySize_of_idle {s : State} (hI : s.Inv) (hp : s.phase = .idle) (hv : s.ksValid = true) : s.keySize := by
  obtain ⟨-, -, h⟩ := hI
  simp only [hp] at h
  obtain ⟨-, -, -, ⟨hf, -⟩ | ⟨-, hk, -⟩⟩ := h
  · simp [hv] at hf
  · exact hk

/-- In a legal idle state the counters and the hidden grid are zero (rule R27). -/
theorem counters_of_idle {s : State} (hI : s.Inv) (hp : s.phase = .idle) :
    s.rnd = 0 ∧ s.kidx = 0 ∧ s.s = Grid.zero := by
  obtain ⟨-, -, h⟩ := hI
  simp only [hp] at h
  obtain ⟨hr, hk, hs, -⟩ := h
  exact ⟨hr, hk, hs⟩

theorem nr_bounds {s : State} (h : s.keySize) : 10 ≤ s.nr ∧ s.nr ≤ 14 ∧ s.nw = 4 * (s.nr + 1) := by
  obtain ⟨-, h, h'⟩ | ⟨-, h, h'⟩ | ⟨-, h, h'⟩ := keySize_cases h <;> omega

/-! ## `EncStep` and `DecStep` by the round counter (rules R143, R153) -/

theorem encStep_first {s : State} (h0 : s.rnd.toNat = 0) :
    encStep s = .next { s with s := addRoundKey s.s (roundKey s.w 0), rnd := 1 } := by
  simp [encStep, h0]

theorem encStep_round {s : State} (hk : s.keySize) (h0 : 0 < s.rnd.toNat) (h1 : s.rnd.toNat < s.nr) :
    encStep s = .next { s with s := cipherRound s.s (roundKey s.w s.rnd.toNat), rnd := s.rnd + 1 } := by
  obtain ⟨h, -⟩ | ⟨-, -, h⟩ | ⟨-, h, -⟩ := encStep_cases hk
  · omega
  · exact h
  · omega

theorem encStep_last {s : State} (hk : s.keySize) (h1 : s.nr ≤ s.rnd.toNat) :
    encStep s = .next (blockFinish (finalRound s.s (roundKey s.w s.nr)) s) := by
  have hn := nr_bounds hk
  obtain ⟨h, -⟩ | ⟨-, h, -⟩ | ⟨-, -, h⟩ := encStep_cases hk
  · omega
  · omega
  · exact h

theorem decStep_first {s : State} (hk : s.keySize) (h0 : s.rnd.toNat = 0) :
    decStep s = .next { s with s := addRoundKey s.s (roundKey s.w s.nr), rnd := 1 } := by
  obtain ⟨-, h⟩ | ⟨h, -⟩ | ⟨h, -⟩ := decStep_cases hk
  · exact h
  · omega
  · omega

theorem decStep_round {s : State} (hk : s.keySize) (h0 : 0 < s.rnd.toNat) (h1 : s.rnd.toNat < s.nr) :
    decStep s = .next { s with s := invRound s.s (roundKey s.w (s.nr - s.rnd.toNat)), rnd := s.rnd + 1 } := by
  obtain ⟨h, -⟩ | ⟨-, -, h⟩ | ⟨-, h, -⟩ := decStep_cases hk
  · omega
  · exact h
  · omega

theorem decStep_last {s : State} (hk : s.keySize) (h1 : s.nr ≤ s.rnd.toNat) :
    decStep s = .next (blockFinish (invFinalRound s.s (roundKey s.w 0)) s) := by
  have hn := nr_bounds hk
  obtain ⟨h, -⟩ | ⟨-, h, -⟩ | ⟨-, -, h⟩ := decStep_cases hk
  · omega
  · omega
  · exact h

/-! ## The run of a block command (rules R143, R153) -/

/-- The state of an `ENC` or `DEC` accepted in `s`, `k` edges after the accept edge: `RND` is `k` and `S` is `g`. -/
def blockRunning (ph : Phase) (s : State) (k : Nat) (g : Grid) : State :=
  { clearResponse s with phase := ph, rnd := BitVec.ofNat 4 k, s := g, inputs := s.inputs.drop (k + 1) }

/-- The grid after the rounds 1 to `k` from `start`, as the loops of rules R141 and R150 compute it. -/
def roundsFrom (round : Grid → Nat → Grid) (start : Grid) (k : Nat) : Grid := (List.range' 1 k).foldl round start

theorem roundsFrom_succ (round : Grid → Nat → Grid) (start : Grid) (k : Nat) :
    roundsFrom round start (k + 1) = round (roundsFrom round start k) (k + 1) := by
  simp [roundsFrom, List.range'_concat, Nat.add_comm]

@[simp] theorem blockRunning_nr (ph : Phase) (s : State) (k : Nat) (g : Grid) :
    (blockRunning ph s k g).nr = s.nr := rfl
@[simp] theorem blockRunning_w (ph : Phase) (s : State) (k : Nat) (g : Grid) :
    (blockRunning ph s k g).w = s.w := rfl
@[simp] theorem blockRunning_s (ph : Phase) (s : State) (k : Nat) (g : Grid) :
    (blockRunning ph s k g).s = g := rfl

/-- `NK` does not change while a block command runs. -/
theorem blockRunning_keySize {s : State} (hk : s.keySize) (ph : Phase) (k : Nat) (g : Grid) :
    (blockRunning ph s k g).advance.keySize := hk

theorem blockRunning_rnd {s : State} {k : Nat} (h : k < 16) (ph : Phase) (g : Grid) :
    (blockRunning ph s k g).rnd.toNat = k := by
  simp [blockRunning]; omega

theorem blockRunning_pins {s : State} {n k : Nat} (h : s.noReset n) (hk : k + 1 < n) (ph : Phase) (g : Grid) :
    (blockRunning ph s k g).pins.rst = false := noReset_pins h hk

/-- `RND` counts one up and one more sample is used up. -/
theorem blockRunning_succ (ph : Phase) (s : State) (k : Nat) (g h : Grid) :
    { (blockRunning ph s k g).advance with s := h, rnd := (blockRunning ph s k g).rnd + 1 } =
      blockRunning ph s (k + 1) h := by
  simp [blockRunning, State.advance, BitVec.ofNat_add]

theorem blockRunning_one (ph : Phase) (s : State) (g h : Grid) :
    { (blockRunning ph s 0 g).advance with s := h, rnd := 1 } = blockRunning ph s 1 h :=
  blockRunning_succ ph s 0 g h

/-- The last step of a block command gives the result of rules R142 and R152. -/
theorem blockFinish_blockRunning (ph : Phase) (s : State) (k : Nat) (g out : Grid) :
    blockFinish out (blockRunning ph s k g).advance = (blockResult (storeState out) s).afterEdges (k + 2) := by
  simp [blockFinish, blockRunning, State.advance, blockResult, State.afterEdges, respond, clearResponse]

/-- The steps of an `ENC` or `DEC` accepted in `s`: what the first, the middle and the last of them make of `S`. -/
structure BlockRun (ph : Phase) (s : State) (first : Grid → Grid) (round : Grid → Nat → Grid) (last : Grid → Grid) :
    Prop where
  step_first : ∀ g, step (blockRunning ph s 0 g) = .next (blockRunning ph s 1 (first g))
  step_round : ∀ k g, 0 < k → k < s.nr →
    step (blockRunning ph s k g) = .next (blockRunning ph s (k + 1) (round g k))
  step_last : ∀ g, step (blockRunning ph s s.nr g) =
    .next ((blockResult (storeState (last g)) s).afterEdges (s.nr + 2))

/-- In the middle of a block command: `S` after the rounds 1 to `k`. -/
theorem BlockRun.run_round {ph : Phase} {s : State} {first : Grid → Grid} {round : Grid → Nat → Grid}
    {last : Grid → Grid} (h : BlockRun ph s first round last) {load : Grid}
    (haccept : step s = .next (blockRunning ph s 0 load)) {k : Nat} (hk : k < s.nr) :
    run (k + 2) s = .next (blockRunning ph s (k + 1) (roundsFrom round (first load) k)) := by
  induction k with
  | zero => rw [run_succ_left _ haccept, run_succ_left _ (h.step_first _)]; rfl
  | succ k ih => rw [run_succ_right (ih (by omega)), h.step_round _ _ (by omega) hk, roundsFrom_succ]

/-- The end of a block command: the result, `NR + 1` edges after the accept edge. -/
theorem BlockRun.run_result {ph : Phase} {s : State} {first : Grid → Grid} {round : Grid → Nat → Grid}
    {last : Grid → Grid} (h : BlockRun ph s first round last) {load : Grid}
    (haccept : step s = .next (blockRunning ph s 0 load)) (hn : 0 < s.nr) :
    run (s.nr + 2) s =
      .next ((blockResult (storeState (last (roundsFrom round (first load) (s.nr - 1)))) s).afterEdges (s.nr + 2)) := by
  have hr := h.run_round haccept (show s.nr - 1 < s.nr by omega)
  rw [show s.nr - 1 + 1 = s.nr by omega, show s.nr - 1 + 2 = s.nr + 1 by omega] at hr
  rw [run_succ_right hr, h.step_last]

/-- The steps of `ENC_RUN`, with the round keys taken from the schedule in `W` (rule R143). -/
theorem encRun_steps {s : State} (hk : s.keySize) (hr : s.noReset (s.nr + 2)) :
    BlockRun .encRun s (fun g => addRoundKey g (scheduleKey (scheduleWords s.w s.nw) 0))
      (fun g r => cipherRound g (scheduleKey (scheduleWords s.w s.nw) r))
      (fun g => finalRound g (scheduleKey (scheduleWords s.w s.nw) s.nr)) := by
  obtain ⟨h10, h14, hnw⟩ := nr_bounds hk
  have hsize := blockRunning_keySize hk .encRun
  have hrnd : ∀ k g, k ≤ s.nr → (blockRunning .encRun s k g).rnd.toNat = k := fun k g h =>
    blockRunning_rnd (by omega) _ g
  have hstep : ∀ k g, k ≤ s.nr → step (blockRunning .encRun s k g) = encStep (blockRunning .encRun s k g).advance :=
    fun k g h => step_encRun rfl (blockRunning_pins hr (by omega) _ g)
  constructor
  · intro g
    rw [hstep 0 g (by omega), encStep_first (s := (blockRunning .encRun s 0 g).advance) (hrnd 0 g (by omega)),
      scheduleKey_scheduleWords _ (by omega), ← blockRunning_one .encRun s g]
    rfl
  · intro k g h0 h1
    have hk' := hrnd k g h1.le
    rw [hstep k g h1.le, encStep_round (hsize k g) (by simpa [hk']) (by simpa [hk']),
      scheduleKey_scheduleWords _ (by omega), ← blockRunning_succ .encRun s k g]
    simp [hk']
  · intro g
    rw [hstep _ g le_rfl, encStep_last (hsize _ g) (by simp [hrnd _ g]), scheduleKey_scheduleWords _ (by omega),
      blockFinish_blockRunning]
    rfl

/-- The steps of `DEC_RUN`, with the round keys taken from the schedule in `W` (rule R153). -/
theorem decRun_steps {s : State} (hk : s.keySize) (hr : s.noReset (s.nr + 2)) :
    BlockRun .decRun s (fun g => addRoundKey g (scheduleKey (scheduleWords s.w s.nw) s.nr))
      (fun g r => invRound g (scheduleKey (scheduleWords s.w s.nw) (s.nr - r)))
      (fun g => invFinalRound g (scheduleKey (scheduleWords s.w s.nw) 0)) := by
  obtain ⟨h10, h14, hnw⟩ := nr_bounds hk
  have hsize := blockRunning_keySize hk .decRun
  have hrnd : ∀ k g, k ≤ s.nr → (blockRunning .decRun s k g).rnd.toNat = k := fun k g h =>
    blockRunning_rnd (by omega) _ g
  have hstep : ∀ k g, k ≤ s.nr → step (blockRunning .decRun s k g) = decStep (blockRunning .decRun s k g).advance :=
    fun k g h => step_decRun rfl (blockRunning_pins hr (by omega) _ g)
  constructor
  · intro g
    rw [hstep 0 g (by omega), decStep_first (hsize 0 g) (hrnd 0 g (by omega)),
      scheduleKey_scheduleWords _ (by omega), ← blockRunning_one .decRun s g]
    rfl
  · intro k g h0 h1
    have hk' := hrnd k g h1.le
    rw [hstep k g h1.le, decStep_round (hsize k g) (by simpa [hk']) (by simpa [hk']),
      scheduleKey_scheduleWords _ (by omega), ← blockRunning_succ .decRun s k g]
    simp [hk']
  · intro g
    rw [hstep _ g le_rfl, decStep_last (hsize _ g) (by simp [hrnd _ g]), scheduleKey_scheduleWords _ (by omega),
      blockFinish_blockRunning]
    rfl

/-- The accept edge of an `ENC` or `DEC` starts its run with the block in `S`. -/
theorem blockAccept_advance (ph : Phase) (data : BitVec 256) (s : State) :
    blockAccept ph data s.advance = blockRunning ph s 0 (loadState (dataBlock data)) := by
  simp [blockAccept, blockRunning, State.advance, clearResponse, respond]

/-- `ENC` ends in its result after `NR + 1` edges (rule R142). -/
theorem run_enc {s : State} {data : BitVec 256} (hk : s.keySize) (hr : s.noReset (s.nr + 2))
    (ha : step s = .next (encAccept data s.advance)) :
    run (s.nr + 2) s = .next ((encResult data s).afterEdges (s.nr + 2)) := by
  have hn := nr_bounds hk
  rw [encAccept, blockAccept_advance] at ha
  exact (encRun_steps hk hr).run_result ha (by omega)

/-- `DEC` ends in its result after `NR + 1` edges (rule R152). -/
theorem run_dec {s : State} {data : BitVec 256} (hk : s.keySize) (hr : s.noReset (s.nr + 2))
    (ha : step s = .next (decAccept data s.advance)) :
    run (s.nr + 2) s = .next ((decResult data s).afterEdges (s.nr + 2)) := by
  have hn := nr_bounds hk
  rw [decAccept, blockAccept_advance] at ha
  exact (decRun_steps hk hr).run_result ha (by omega)

/-! ## The run of a `KEXP` (rule R129) -/

/-- Writing two lists one after the other is writing their concatenation. -/
theorem memWriteList_append (m : Memory) (i : Nat) (ws vs : List Word) :
    memWriteList m i (ws ++ vs) = memWriteList (memWriteList m i ws) (i + ws.length) vs := by
  induction ws generalizing m i with
  | nil => rfl
  | cons w ws ih =>
    rw [List.cons_append, memWriteList_cons, memWriteList_cons, ih, List.length_cons, Nat.add_right_comm, Nat.add_assoc]

theorem memRead_memWriteList_zero (m : Memory) {ws : List Word} {j : Nat} (h : j < ws.length) :
    memRead (memWriteList m 0 ws) j = ws.getD j Word.zero := by
  simp [memRead_memWriteList, h]

/-- A schedule written from word 0 on, with the words above it cleared, leaves nothing of the old memory. -/
theorem memWriteList_clear_above {m : Memory} (hm : Memory.wf m = true) {ws : List Word}
    (h : ws.length ≤ Config.ksDepth) :
    memWriteList (memWriteList m 0 ws) ws.length (List.replicate (Config.ksDepth - ws.length) Word.zero) =
      scheduleMemory ws := by
  refine memory_ext_words (memWriteList_wf (memWriteList_wf hm (by omega)) (by simp; omega)) (scheduleMemory_wf h)
    fun i hi => ?_
  rw [memRead_scheduleMemory, memRead_memWriteList, List.length_replicate]
  by_cases hw : i < ws.length
  · rw [if_neg (by omega), memRead_memWriteList_zero m hw]
  · rw [if_pos (by omega), List.getD_eq_default ws _ (by omega), List.getD_replicate _ (by omega)]

/-- The words of the schedule of `key` after `k` turns of the loop of rule R126. -/
def keyTurns (key : List Byte) (nk k : Nat) : List Word := (List.range' nk k).foldl (expandTurn nk) (keyWords key nk)

@[simp] theorem keyTurns_length (key : List Byte) (nk k : Nat) : (keyTurns key nk k).length = nk + k := by
  simp [keyTurns, foldl_expandTurn_length, keyWords_length]

theorem keyTurns_succ (key : List Byte) (nk k : Nat) :
    keyTurns key nk (k + 1) = expandTurn nk (keyTurns key nk k) (nk + k) := by
  simp [keyTurns, List.range'_concat]

theorem keyTurns_all {key : List Byte} {nk : Nat} (h : key.length / 4 = nk) :
    keyTurns key nk (nwOf nk - nk) = expandKey key := by
  subst h; rfl

/-- A word step on a memory that holds the words of `k` turns writes the next word of the schedule. -/
theorem memWrite_next_word (m : Memory) (key : List Byte) {nk : Nat} (hn : 0 < nk) {k i : Nat} (hi : i = nk + k)
    {w : Memory} (hw : w = memWriteList m 0 (keyTurns key nk k)) :
    memWrite w i (Word.xor (memRead w (i - nk)) (keyTemp i nk (memRead w (i - 1)))) =
      memWriteList m 0 (keyTurns key nk (k + 1)) := by
  have hread : ∀ j, j < nk + k → memRead w j = (keyTurns key nk k).getD j Word.zero := fun j hj => by
    rw [hw, memRead_memWriteList_zero m (by simpa using hj)]
  rw [hread _ (by omega), hread _ (by omega), keyTurns_succ, expandTurn, memWriteList_append, keyTurns_length,
    Nat.zero_add, ← hw, hi]
  rfl

/-- The state of a `KEXP` accepted in `s`, `k` edges after the accept edge: `k` turns are done. -/
def keyRunning (len : BitVec 6) (data : BitVec 256) (s : State) (k : Nat) : State :=
  { kexpAccept len data s with
    w := memWriteList s.w 0 (keyTurns (keyBytes data len.toNat) (len.toNat / 4) k)
    kidx := BitVec.ofNat 6 (len.toNat / 4 + k)
    inputs := s.inputs.drop (k + 1) }

theorem kexpAccept_advance (len : BitVec 6) (data : BitVec 256) (s : State) :
    kexpAccept len data s.advance = keyRunning len data s 0 := by
  simp [kexpAccept, keyRunning, State.advance, clearResponse, respond, keyTurns]

theorem keyRunning_pins {s : State} {n k : Nat} (h : s.noReset n) (hk : k + 1 < n) (len : BitVec 6)
    (data : BitVec 256) : (keyRunning len data s k).pins.rst = false := noReset_pins h hk

theorem keySize_of_keyLengths {len : BitVec 6} (h : len.toNat ∈ keyLengths) : len.toNat / 4 ∈ [4, 6, 8] := by
  obtain h | h | h := keyLengths_cases h <;> simp [h]

theorem keySize_bounds {nk : Nat} (h : nk ∈ [4, 6, 8]) : 4 ≤ nk ∧ nk ≤ 8 ∧ nwOf nk = 4 * (nk + 7) := by
  have h' : 4 ≤ nk ∧ nk ≤ 8 := by
    simp only [List.mem_cons, List.not_mem_nil, or_false] at h
    omega
  exact ⟨h'.1, h'.2, nwOf_of_pos (by omega)⟩

/-- `NK`, `NW` and `KIDX` while a `KEXP` runs (rules R14, R21). -/
theorem keyRunning_counters {len : BitVec 6} (h : len.toNat ∈ keyLengths) (data : BitVec 256) (s : State) {k : Nat}
    (hk : k ≤ nwOf (len.toNat / 4) - len.toNat / 4) :
    (keyRunning len data s k).nk.toNat = len.toNat / 4 ∧ (keyRunning len data s k).nw = nwOf (len.toNat / 4) ∧
      (keyRunning len data s k).kidx.toNat = len.toNat / 4 + k := by
  obtain ⟨-, hnk, -⟩ := kexpAccept_keySize h data s
  obtain ⟨h4, h8, hnw⟩ := keySize_bounds (keySize_of_keyLengths h)
  have hnk' : (keyRunning len data s k).nk.toNat = len.toNat / 4 := hnk
  refine ⟨hnk', by rw [State.nw, hnk'], ?_⟩
  exact Nat.mod_eq_of_lt (by omega)

/-- A word step makes one more turn of the loop of rule R126. -/
theorem kexpWord_keyRunning {s : State} {len : BitVec 6} {data : BitVec 256} {k : Nat} (h : len.toNat ∈ keyLengths)
    (hk : k < nwOf (len.toNat / 4) - len.toNat / 4) :
    kexpWord (keyRunning len data s k).advance = keyRunning len data s (k + 1) := by
  obtain ⟨hnk, -, hi⟩ := keyRunning_counters h data s (le_of_lt hk)
  obtain ⟨h4, -, -⟩ := keySize_bounds (keySize_of_keyLengths h)
  have hw : (kexpWord (keyRunning len data s k).advance).w = (keyRunning len data s (k + 1)).w := by
    rw [kexpWord_w]
    simp only [advance_w, advance_kidx, advance_nk, hnk, hi]
    exact memWrite_next_word s.w _ (by omega) rfl rfl
  have hx : kexpWord (keyRunning len data s k).advance =
      { (keyRunning len data s k).advance with
        w := (kexpWord (keyRunning len data s k).advance).w, kidx := (keyRunning len data s k).kidx + 1 } := rfl
  rw [hx, hw]
  simp [keyRunning, State.advance, BitVec.ofNat_add, ← Nat.add_assoc]

/-- In a state with the counters and the hidden grid at zero, the finishing step gives the result of rule R128. -/
theorem kexpFinish_keyRunning {s : State} {len : BitVec 6} {data : BitVec 256} {k : Nat} (h : len.toNat ∈ keyLengths)
    (hk : k = nwOf (len.toNat / 4) - len.toNat / 4) (hm : Memory.wf s.w = true) (hrnd : s.rnd = 0)
    (hs : s.s = Grid.zero) :
    kexpFinish (keyRunning len data s k).advance = (kexpResult len data s).afterEdges (k + 2) := by
  obtain ⟨-, hnw, -⟩ := keyRunning_counters h data s hk.le
  obtain ⟨h4, h8, hn⟩ := keySize_bounds (keySize_of_keyLengths h)
  have hd : Config.ksDepth = 60 := rfl
  have hlen : (keyTurns (keyBytes data len.toNat) (len.toNat / 4) k).length = nwOf (len.toNat / 4) := by
    rw [keyTurns_length]; omega
  have hw : (kexpFinish (keyRunning len data s k).advance).w = (kexpResult len data s).w := by
    rw [kexpFinish_w, advance_w, advance_nw, hnw, ← hlen]
    refine (memWriteList_clear_above hm (by omega)).trans (congrArg scheduleMemory ?_)
    rw [hk]
    exact keyTurns_all (by rw [keyBytes_length])
  have hx : kexpFinish (keyRunning len data s k).advance =
      { kexpFinish (keyRunning len data s k).advance with w := (kexpResult len data s).w } := by rw [← hw]
  rw [hx]
  simp [kexpFinish, keyRunning, kexpAccept, kexpResult, State.advance, State.afterEdges, clearResponse, respond,
    hrnd, hs]

/-- A step of `KEXP_RUN` below `NW` is a word step, and at `NW` the finishing step. -/
theorem step_keyRunning {s : State} {len : BitVec 6} {data : BitVec 256} {k : Nat} (h : len.toNat ∈ keyLengths)
    (hr : (keyRunning len data s k).pins.rst = false) :
    (k < nwOf (len.toNat / 4) - len.toNat / 4 →
        step (keyRunning len data s k) = .next (keyRunning len data s (k + 1))) ∧
      (k = nwOf (len.toNat / 4) - len.toNat / 4 →
        step (keyRunning len data s k) = .next (kexpFinish (keyRunning len data s k).advance)) := by
  obtain ⟨h4, h8, hn⟩ := keySize_bounds (keySize_of_keyLengths h)
  rw [step_kexpRun rfl hr]
  refine ⟨fun hk => ?_, fun hk => ?_⟩
  · obtain ⟨hnk, hnw, hi⟩ := keyRunning_counters h data s hk.le
    have hf := kexpIndexFault_none (keySize_of_keyLengths h) (i := len.toNat / 4 + k) (by omega) (by omega)
    have hlt : len.toNat / 4 + k < nwOf (len.toNat / 4) := by omega
    rw [← kexpWord_keyRunning h hk]
    simp [kexpStep, hnk, hnw, hi, hf, hlt]
  · obtain ⟨hnk, hnw, hi⟩ := keyRunning_counters h data s hk.le
    have hge : ¬ len.toNat / 4 + k < nwOf (len.toNat / 4) := by omega
    simp [kexpStep, hnw, hi, hge]

/-- In the middle of a `KEXP`: `k` edges after the accept edge `k` turns are done. -/
theorem run_keyRunning {s : State} {len : BitVec 6} {data : BitVec 256} (h : len.toNat ∈ keyLengths)
    (ha : step s = .next (kexpAccept len data s.advance)) {k : Nat} (hr : s.noReset (k + 1))
    (hk : k ≤ nwOf (len.toNat / 4) - len.toNat / 4) :
    run (k + 1) s = .next (keyRunning len data s k) := by
  induction k with
  | zero => rw [run_succ_left _ ha, kexpAccept_advance]; rfl
  | succ k ih =>
    rw [run_succ_right (ih (noReset_of_le hr (by omega)) (by omega))]
    exact (step_keyRunning h (keyRunning_pins hr (by omega) _ _)).1 (by omega)

/-- `KEXP` ends in its result after `NW - NK + 1` edges (rules R128, R190). -/
theorem run_kexp {s : State} {len : BitVec 6} {data : BitVec 256} (hI : s.Inv) (hp : s.phase = .idle)
    (h : len.toNat ∈ keyLengths) (ha : step s = .next (kexpAccept len data s.advance))
    (hr : s.noReset (nwOf (len.toNat / 4) - len.toNat / 4 + 2)) :
    run (nwOf (len.toNat / 4) - len.toNat / 4 + 2) s =
      .next ((kexpResult len data s).afterEdges (nwOf (len.toNat / 4) - len.toNat / 4 + 2)) := by
  obtain ⟨hrnd, -, hs⟩ := counters_of_idle hI hp
  obtain ⟨hwf, -, -⟩ := hI
  rw [run_succ_right (run_keyRunning h ha (noReset_of_le hr (by omega)) le_rfl),
    (step_keyRunning h (keyRunning_pins hr (by omega) _ _)).2 rfl, kexpFinish_keyRunning h rfl hwf hrnd hs]

/-! ## The end of a command in both machines -/

/-- From a legal idle state the reference sequencer reaches the atomic result of a command after the reference
latency (rule R25). -/
theorem run_reference_result {s : State} {i : Instr} (hI : s.Inv) (hi : s.presents i)
    (hr : s.noReset (commandLatency Config.Latency.reference i s + 1)) :
    run (commandLatency Config.Latency.reference i s + 1) s =
      .next ((commandResult i s).afterEdges (commandLatency Config.Latency.reference i s + 1)) := by
  obtain ⟨e, -, hx, hres, hl⟩ | ⟨len, data, -, hlen, hx, hres, hl⟩ | ⟨len, data, -, hv, hx, hres, hl⟩ |
    ⟨len, data, -, hv, hx, hres, hl⟩ := command_cases i s
  · rw [hl, hres, run_succ_left _ (step_accept_next hi hx), advance_eq_afterEdges]
    rfl
  · obtain ⟨-, -, hn⟩ := keySize_bounds (keySize_of_keyLengths hlen)
    have href : Config.Latency.reference.kexp (len.toNat / 4) = nwOf (len.toNat / 4) - len.toNat / 4 + 1 := by
      rw [hn]; rfl
    rw [hl, href] at hr ⊢
    rw [hres]
    exact run_kexp hI hi.1 hlen (step_accept_next hi hx) hr
  · rw [hl] at hr ⊢
    rw [hres]
    exact run_enc (keySize_of_idle hI hi.1 hv) hr (step_accept_next hi hx)
  · rw [hl] at hr ⊢
    rw [hres]
    exact run_dec (keySize_of_idle hI hi.1 hv) hr (step_accept_next hi hx)

/-- The coming edge used up, no reset is applied at the edges after it. -/
theorem noReset_advance {s : State} {n : Nat} (h : s.noReset (n + 1)) : s.advance.noReset n := fun p hp => by
  refine h p ?_
  cases hs : s.inputs with
  | nil => simp [hs] at hp
  | cons q qs => exact List.mem_cons_of_mem _ (by simpa [hs] using hp)

/-- The atomic core with `n` edges left for a command that leads to `r`. -/
theorem atomicRun_pending (l : Config.Latency) (r : State) {n : Nat} {b : State} (hr : b.noReset (n + 1)) :
    atomicRun l (n + 1) ⟨b, some (n + 1, r)⟩ = ⟨{ r with inputs := b.inputs.drop (n + 1) }, none⟩ := by
  have hp : b.pins.rst = false := noReset_pins hr (Nat.succ_pos n)
  induction n generalizing b with
  | zero => simp [atomicRun, atomicStep, atomicEdge, hp]
  | succ n ih =>
    have hb : b.advance.noReset (n + 1) := noReset_advance hr
    have hstep : atomicStep l ⟨b, some (n + 1 + 1, r)⟩ = ⟨b.advance, some (n + 1, r)⟩ := by
      simp [atomicStep, atomicEdge, hp]
    rw [atomicRun, hstep, ih hb (noReset_pins hb (Nat.succ_pos n))]
    simp

@[simp] theorem busyState_inputs (i : Instr) (s : State) : (busyState i s).inputs = s.inputs := by cases i <;> rfl

/-- The atomic core reaches the result of a presented command after the command's own latency, whatever it is
(rule R25). -/
theorem atomicRun_result (l : Config.Latency) {s : State} {i : Instr} (hi : s.presents i)
    (hr : s.noReset (commandLatency l i s + 1)) :
    atomicRun l (commandLatency l i s + 1) ⟨s, none⟩ =
      ⟨(commandResult i s).afterEdges (commandLatency l i s + 1), none⟩ := by
  obtain ⟨-, hrst, hv, rfl⟩ := hi
  have hstep : atomicStep l ⟨s, none⟩ = atomicAccept l s.pins.command s.advance := by
    simp [atomicStep, atomicEdge, hrst, hv]
  rw [atomicRun, hstep, atomicAccept, commandLatency_advance]
  cases hn : commandLatency l s.pins.command s with
  | zero =>
    rw [commandResult_advance, advance_eq_afterEdges]
    rfl
  | succ n =>
    have hb : (busyState s.pins.command s.advance).noReset (n + 1) := by
      rw [hn] at hr
      simpa [State.noReset] using noReset_advance hr
    simp only [atomicRun_pending l _ hb, busyState_inputs, commandResult_advance]
    simp [State.afterEdges, State.advance]

/-- Settles O29: the sequencer's run and the atomic core's both end in the command's result, which is idle and answers;
only the samples used up differ. -/
theorem anyLatencyGivesSameResult : Obligations.AnyLatencyGivesSameResult := by
  unfold Obligations.AnyLatencyGivesSameResult
  intro l s i hI hi hrl hrr
  obtain ⟨hidle, hvalid⟩ := commandResult_idle_response i hi.1
  refine ⟨_, run_reference_result hI hi hrr, hidle, hvalid, ?_⟩
  rw [atomicRun_result l hi hrl]
  simp [State.afterEdges]

end Sys2Proof.Machine
end

section
/-!
SUPPORT. One edge: the shared round update of `ENC_RUN` and `DEC_RUN`, and everything an edge that answers a next state
can do, said once (rule R22). The statements about a single step follow from it case by case.
-/

namespace Sys2Proof.Machine

/-! ## A step of `ENC_RUN` or `DEC_RUN` that is not the last -/

/-- The update of a step of `ENC_RUN` or `DEC_RUN` before the last: `S` is `g` and `RND` counts one up
(rules R143, R153). -/
def roundStep (g : Grid) (s : State) : State := { s with s := g, rnd := s.rnd + 1 }

@[simp] theorem roundStep_nk (g : Grid) (s : State) : (roundStep g s).nk = s.nk := rfl
@[simp] theorem roundStep_ksValid (g : Grid) (s : State) : (roundStep g s).ksValid = s.ksValid := rfl
@[simp] theorem roundStep_w (g : Grid) (s : State) : (roundStep g s).w = s.w := rfl
@[simp] theorem roundStep_rspValid (g : Grid) (s : State) : (roundStep g s).rspValid = s.rspValid := rfl
@[simp] theorem roundStep_rspErr (g : Grid) (s : State) : (roundStep g s).rspErr = s.rspErr := rfl
@[simp] theorem roundStep_rspData (g : Grid) (s : State) : (roundStep g s).rspData = s.rspData := rfl
@[simp] theorem roundStep_phase (g : Grid) (s : State) : (roundStep g s).phase = s.phase := rfl
@[simp] theorem roundStep_rnd (g : Grid) (s : State) : (roundStep g s).rnd = s.rnd + 1 := rfl
@[simp] theorem roundStep_kidx (g : Grid) (s : State) : (roundStep g s).kidx = s.kidx := rfl
@[simp] theorem roundStep_s (g : Grid) (s : State) : (roundStep g s).s = g := rfl
@[simp] theorem roundStep_inputs (g : Grid) (s : State) : (roundStep g s).inputs = s.inputs := rfl
@[simp] theorem roundStep_nr (g : Grid) (s : State) : (roundStep g s).nr = s.nr := rfl
@[simp] theorem roundStep_nw (g : Grid) (s : State) : (roundStep g s).nw = s.nw := rfl

/-- The first step of a block run sets `RND` to 1, which is one up from 0. -/
theorem roundStep_first {s : State} (h : s.rnd.toNat = 0) (g : Grid) :
    ({ s with s := g, rnd := 1 } : State) = roundStep g s := by
  have h0 : s.rnd = 0 := BitVec.eq_of_toNat_eq h
  simp [roundStep, h0]

/-- The steps of `ENC_RUN` and `DEC_RUN` before the last are those with `RND` 0 or below `NR`. -/
abbrev State.roundsLeft (s : State) : Prop := s.rnd.toNat = 0 ∨ s.rnd.toNat < s.nr

/-- Where `EncStep` answers, it is a round update or the finish with the final round (rule R143). -/
theorem encStep_next {s t : State} (h : encStep s = .next t) :
    (s.roundsLeft ∧ ∃ g, t = roundStep g s) ∨
      (¬ s.roundsLeft ∧ t = blockFinish (finalRound s.s (roundKey s.w s.nr)) s) := by
  by_cases h0 : s.rnd.toNat = 0
  · rw [encStep_first h0, roundStep_first h0] at h
    cases h
    exact .inl ⟨.inl h0, _, rfl⟩
  · by_cases h1 : s.rnd.toNat < s.nr
    · cases hf : roundKeyFault s.rnd.toNat with
      | none =>
        exact .inl ⟨.inr h1, cipherRound s.s (roundKey s.w s.rnd.toNat),
          by simpa [encStep, h0, h1, hf, roundStep] using h.symm⟩
      | some f => simp [encStep, h0, h1, hf] at h
    · cases hf : roundKeyFault s.nr with
      | none => exact .inr ⟨by simp [State.roundsLeft, h0, h1], by simpa [encStep, h0, h1, hf] using h.symm⟩
      | some f => simp [encStep, h0, h1, hf] at h

/-- Where `DecStep` answers, it is a round update or the finish with the inverse final round (rule R153). -/
theorem decStep_next {s t : State} (h : decStep s = .next t) :
    (s.roundsLeft ∧ ∃ g, t = roundStep g s) ∨
      (¬ s.roundsLeft ∧ t = blockFinish (invFinalRound s.s (roundKey s.w 0)) s) := by
  by_cases h0 : s.rnd.toNat = 0
  · cases hf : roundKeyFault s.nr with
    | none =>
      exact .inl ⟨.inl h0, addRoundKey s.s (roundKey s.w s.nr),
        by rw [← roundStep_first h0]; simpa [decStep, h0, hf] using h.symm⟩
    | some f => simp [decStep, h0, hf] at h
  · by_cases h1 : s.rnd.toNat < s.nr
    · cases hf : roundKeyFault (s.nr - s.rnd.toNat) with
      | none =>
        exact .inl ⟨.inr h1, invRound s.s (roundKey s.w (s.nr - s.rnd.toNat)),
          by simpa [decStep, h0, h1, hf, roundStep] using h.symm⟩
      | some f => simp [decStep, h0, h1, hf] at h
    · exact .inr ⟨by simp [State.roundsLeft, h0, h1], by simpa [decStep, h0, h1] using h.symm⟩

/-! ## What an edge can do -/

/-- The phase in which a block command runs, and the grid whose bytes its last step answers: the final round of
`ENC`, the inverse final round of `DEC` (rules R143, R153). -/
inductive BlockPhase (s : State) : Grid → Prop
  | enc (hp : s.phase = .encRun) : BlockPhase s (finalRound s.s (roundKey s.w s.nr))
  | dec (hp : s.phase = .decRun) : BlockPhase s (invFinalRound s.s (roundKey s.w 0))

theorem BlockPhase.phase_cases {s : State} {out : Grid} (h : BlockPhase s out) :
    s.phase = .encRun ∨ s.phase = .decRun := by
  cases h with
  | enc hp => exact .inl hp
  | dec hp => exact .inr hp

/-- The command `i`, of phase `ph` and block `data`, is an `ENC` or a `DEC`. -/
inductive StartsBlock : Instr → Phase → BitVec 256 → Prop
  | enc (len : BitVec 6) (data : BitVec 256) : StartsBlock (.enc len data) .encRun data
  | dec (len : BitVec 6) (data : BitVec 256) : StartsBlock (.dec len data) .decRun data

theorem StartsBlock.phase_cases {i : Instr} {ph : Phase} {data : BitVec 256} (h : StartsBlock i ph data) :
    ph = .encRun ∨ ph = .decRun := by
  cases h with
  | enc => exact .inl rfl
  | dec => exact .inr rfl

/-- The next states an edge in `s` can lead to, with the condition of each (rule R22). -/
inductive EdgeResult (s : State) : State → Prop
  | reset (hr : s.pins.rst = true) : EdgeResult s (resetStep s.advance)
  | error {i : Instr} {e : Err} (hi : s.presents i) (he : acceptError i s = some e) :
      EdgeResult s (raiseError s.advance e)
  | kexpAccept {len : BitVec 6} {data : BitVec 256} (hi : s.presents (.kexp len data))
      (hl : len.toNat ∈ keyLengths) : EdgeResult s (kexpAccept len data s.advance)
  | blockAccept {i : Instr} {ph : Phase} {data : BitVec 256} (hi : s.presents i) (he : acceptError i s = none)
      (hb : StartsBlock i ph data) (hv : s.ksValid = true) : EdgeResult s (blockAccept ph data s.advance)
  | quiet (hr : s.pins.rst = false) (hp : s.phase = .idle) (hc : s.pins.cmdValid = false) :
      EdgeResult s s.advance
  | kexpWord (hr : s.pins.rst = false) (hp : s.phase = .kexpRun) (hi : s.kidx.toNat < s.nw) :
      EdgeResult s (kexpWord s.advance)
  | kexpFinish (hr : s.pins.rst = false) (hp : s.phase = .kexpRun) (hi : s.nw ≤ s.kidx.toNat) :
      EdgeResult s (kexpFinish s.advance)
  | round {out : Grid} (g : Grid) (hr : s.pins.rst = false) (hb : BlockPhase s out) (hl : s.roundsLeft) :
      EdgeResult s (roundStep g s.advance)
  | blockFinish {out : Grid} (hr : s.pins.rst = false) (hb : BlockPhase s out) (hl : ¬ s.roundsLeft) :
      EdgeResult s (blockFinish out s.advance)

/-- A step of a block run, given what its step function can answer. -/
theorem edgeResult_of_blockStep {s t : State} {out : Grid} (hr : s.pins.rst = false) (hb : BlockPhase s out)
    (h : (s.roundsLeft ∧ ∃ g, t = roundStep g s.advance) ∨ (¬ s.roundsLeft ∧ t = blockFinish out s.advance)) :
    EdgeResult s t := by
  obtain ⟨hl, g, rfl⟩ | ⟨hl, rfl⟩ := h
  · exact .round g hr hb hl
  · exact .blockFinish hr hb hl

theorem edgeResult_of_exec {s t : State} {i : Instr} (hi : s.presents i) (h : exec i s.advance = .next t) :
    EdgeResult s t := by
  obtain ⟨e, he, hx⟩ | ⟨he, ⟨len, data, rfl, hl, hx⟩ | ⟨len, data, rfl, -, hv, hx⟩ | ⟨len, data, rfl, -, hv, hx⟩⟩ :=
    exec_cases i s.advance <;> rw [hx] at h <;> cases h
  · exact .error hi ((acceptError_advance i s).symm.trans he)
  · exact .kexpAccept hi hl
  · exact .blockAccept hi he (.enc len data) hv
  · exact .blockAccept hi he (.dec len data) hv

/-- Every step that answers a next state is one of the edges of `EdgeResult`. -/
theorem edgeResult_of_step {s t : State} (h : step s = .next t) : EdgeResult s t := by
  obtain ⟨hr, hs⟩ | ⟨i, hi, hs⟩ | ⟨hr, hp, hc, hs⟩ | ⟨hr, hp, hs⟩ | ⟨hr, hp, hs⟩ | ⟨hr, hp, hs⟩ := step_cases s <;>
    rw [hs] at h
  · cases h
    exact .reset hr
  · exact edgeResult_of_exec hi h
  · cases h
    exact .quiet hr hp hc
  · obtain ⟨hi, -, hx⟩ | ⟨hi, hx⟩ | ⟨f, -, -, hx⟩ := kexpStep_cases s.advance <;> rw [hx] at h <;> cases h
    · exact .kexpWord hr hp hi
    · exact .kexpFinish hr hp hi
  · exact edgeResult_of_blockStep hr (.enc hp) (encStep_next h)
  · exact edgeResult_of_blockStep hr (.dec hp) (decStep_next h)

/-- The opcode of the command on the ports is the level of `cmd_op` (rules R61, R62). -/
theorem command_opcode (p : Pins) : p.command.opcode = p.cmdOp := by
  obtain ⟨rst, v, op, len, data, j⟩ := p
  have hop : op = 0b00#2 ∨ op = 0b01#2 ∨ op = 0b10#2 ∨ op = 0b11#2 := by revert op; decide
  rcases hop with rfl | rfl | rfl | rfl <;> rfl

/-- A command that starts a block run has the code of its phase as opcode (rules R19, R62). -/
theorem startsBlock_opcode {i : Instr} {ph : Phase} {data : BitVec 256} (h : StartsBlock i ph data) :
    ph ≠ .idle ∧ ph.code = i.opcode := by
  cases h with
  | enc => exact ⟨nofun, rfl⟩
  | dec => exact ⟨nofun, rfl⟩

/-! ## The statements about one step -/

/-- Settles O3: the situations of a step are the rows of the table. -/
theorem stepFollowsEdgeTable : Obligations.StepFollowsEdgeTable := by
  unfold Obligations.StepFollowsEdgeTable
  intro s
  obtain ⟨hr, hs⟩ | ⟨i, ⟨hp, hr, hc, rfl⟩, hs⟩ | ⟨hr, hp, hc, hs⟩ | ⟨hr, hp, hs⟩ | ⟨hr, hp, hs⟩ | ⟨hr, hp, hs⟩ :=
    step_cases s
  · simp [hs, hr, resetStep]
  · simp [hs, hr, hp, hc, State.advance]
  · simp [hs, hr, hp, hc, State.advance]
  all_goals simp [hs, hr, hp, State.advance]

/-- Settles O5: no update of an edge touches the samples, of which `advance` has dropped the first. -/
theorem everyEdgeUsesUpOneSample : Obligations.EveryEdgeUsesUpOneSample := by
  unfold Obligations.EveryEdgeUsesUpOneSample
  intro s t h
  cases edgeResult_of_step h <;> rfl

/-- Two samples with the same `rst` make the same edge of a core in a running phase, or with no command presented,
or with the same command presented (rules R22, R184). -/
theorem edge_congr {p q : Pins} {s : State} (hr : p.rst = q.rst)
    (h : s.phase ≠ .idle ∨ (p.cmdValid = false ∧ q.cmdValid = false) ∨
      (p.cmdValid = q.cmdValid ∧ p.command = q.command)) : edge p s = edge q s := by
  obtain hp | ⟨hp, hq⟩ | ⟨hv, hc⟩ := h
  · simp [edge, hr, hp]
  · simp [edge, hr, hp, hq]
  · simp [edge, hr, hv, hc]

/-- Settles O7: `edge` reads the command only where one is accepted, and `ks_idx` nowhere. -/
theorem unreadInputsHaveNoEffect : Obligations.UnreadInputsHaveNoEffect := by
  unfold Obligations.UnreadInputsHaveNoEffect
  intro s p q later hr h
  refine edge_congr (p := p) (q := q) (s := { s with inputs := later }) hr (h.imp_right (.imp_right ?_))
  rintro ⟨hv, hop, hlen, hdata⟩
  exact ⟨hv, by simp [Pins.command, hop, hlen, hdata]⟩

/-- Settles O36: every edge but a reset, an accepted `KEXP` and a step of `KEXP_RUN` keeps the schedule registers. -/
theorem onlyKexpAndResetWriteSchedule : Obligations.OnlyKexpAndResetWriteSchedule := by
  unfold Obligations.OnlyKexpAndResetWriteSchedule
  intro s t h
  cases edgeResult_of_step h with
  | reset hr => exact .inl hr
  | kexpWord _ hp | kexpFinish _ hp => exact .inr (.inl hp)
  | kexpAccept hi hl =>
    obtain ⟨hp, -, hc, hi⟩ := hi
    exact .inr (.inr (.inl ⟨hp, hc, _, _, hi, hl⟩))
  | error | blockAccept | quiet | round | blockFinish => exact .inr (.inr (.inr ⟨fun _ => rfl, rfl, rfl, rfl⟩))

/-- Settles O37: the phase after each edge of `EdgeResult`. -/
theorem phaseTransitions : Obligations.PhaseTransitions := by
  unfold Obligations.PhaseTransitions
  refine ⟨⟨rfl, rfl, rfl, rfl⟩, fun s t h => ?_⟩
  cases edgeResult_of_step h with
  | reset hr => simp [hr]
  | error hi he =>
    obtain ⟨hp, hr, hc, rfl⟩ := hi
    simp [hp, hr, he]
  | kexpAccept hi hl =>
    obtain ⟨hp, hr, hc, hi⟩ := hi
    have hop := command_opcode s.pins
    rw [hi] at hop
    simp [hp, hr, hc, hi, acceptError, keyError_none hl, ← hop, Phase.code, Instr.opcode]
  | blockAccept hi he hb hv =>
    obtain ⟨hp, hr, hc, rfl⟩ := hi
    simp [hp, hr, hc, he, startsBlock_opcode hb, command_opcode]
  | quiet hr hp hc => simp [hp, hr, hc]
  | kexpWord hr hp hi => simp [hp, hr, hi]
  | kexpFinish hr hp hi => simp [hp, hr, hi]
  | round g hr hb hl => cases hb with
    | enc hp => simp [hp, hr, hl]
    | dec hp => simp [hp, hr, hl]
  | blockFinish hr hb hl => cases hb with
    | enc hp => simp [hp, hr, hl]
    | dec hp => simp [hp, hr, hl]

/-- Settles O38: the response after each edge of `EdgeResult`. -/
theorem responseRegistersChangeOnlyAsTabled : Obligations.ResponseRegistersChangeOnlyAsTabled := by
  unfold Obligations.ResponseRegistersChangeOnlyAsTabled
  refine ⟨fun e => by cases e <;> decide, fun s t h => ?_⟩
  cases edgeResult_of_step h with
  | reset hr => simp [hr]
  | error hi he =>
    obtain ⟨hp, hr, hc, rfl⟩ := hi
    simp [hp, hr, hc, he]
  | kexpAccept hi hl =>
    obtain ⟨hp, hr, hc, hi⟩ := hi
    simp [hp, hr, hc, hi, acceptError, keyError_none hl]
  | blockAccept hi he hb hv =>
    obtain ⟨hp, hr, hc, rfl⟩ := hi
    simp [hp, hr, hc, he]
  | quiet hr hp hc => simp [hp, hr, hc]
  | kexpWord hr hp hi => simp [hp, hr]
  | kexpFinish hr hp hi => simp [hp, hr]
  | round g hr hb hl => cases hb with
    | enc hp => simp [hp, hr]
    | dec hp => simp [hp, hr]
  | blockFinish hr hb hl => cases hb with
    | enc hp => simp [hp, hr]
    | dec hp => simp [hp, hr]

end Sys2Proof.Machine
end

section
/-!
SUPPORT. The state invariant: what it says in each phase, that every edge keeps it, and what the ports and registers
show where it holds.
-/

namespace Sys2Proof.Machine

/-! ## The invariant by phase -/

theorem inv_idle_iff {s : State} (hp : s.phase = .idle) :
    s.Inv ↔ Memory.wf s.w = true ∧ s.responseLegal ∧ s.idleInv := by simp [State.Inv, hp]

theorem inv_kexp_iff {s : State} (hp : s.phase = .kexpRun) :
    s.Inv ↔ Memory.wf s.w = true ∧ s.responseLegal ∧ s.kexpInv := by simp [State.Inv, hp]

theorem inv_block_iff {s : State} (hp : s.phase = .encRun ∨ s.phase = .decRun) :
    s.Inv ↔ Memory.wf s.w = true ∧ s.responseLegal ∧ s.blockInv := by
  obtain hp | hp := hp <;> simp [State.Inv, hp]

/-- All response registers zero is a legal response. -/
theorem responseLegal_of_noResponse {s : State} (h : s.noResponse) : s.responseLegal := by
  obtain ⟨hv, he, hd⟩ := h
  exact ⟨by simp [he], fun _ => hd, fun _ => ⟨hv, he, hd⟩⟩

/-- A response without an error is legal, with whatever block. -/
theorem responseLegal_of_success {s : State} (hv : s.rspValid = true) (he : s.rspErr = 0) : s.responseLegal :=
  ⟨by simp [he], fun h => absurd he h, fun h => by simp [hv] at h⟩

/-- A raised error is a legal response (rules R160, R166). -/
theorem raiseError_responseLegal (s : State) (e : Err) : (raiseError s e).responseLegal :=
  ⟨by cases e <;> simp [Err.code], fun _ => rfl, fun h => nomatch h⟩

/-! ## The recurrence of the key schedule (rule R126) -/

/-- Later turns of the loop leave the words of the first `k` turns as they are. -/
theorem keyTurns_getD (key : List Byte) (nk : Nat) {k m j : Nat} (hk : k ≤ m) (hj : j < nk + k) :
    (keyTurns key nk m).getD j Word.zero = (keyTurns key nk k).getD j Word.zero := by
  induction m, hk using Nat.le_induction with
  | base => rfl
  | succ m hm ih => rw [keyTurns_succ, expandTurn, List.getD_append _ _ _ _ (by simp; omega), ih]

/-- Before any turn the words are those of the key. -/
theorem expandKey_getD_of_lt {key : List Byte} {nk i : Nat} (hl : key.length / 4 = nk) (hi : i < nk) :
    (expandKey key).getD i Word.zero = (keyWords key nk).getD i Word.zero := by
  rw [← keyTurns_all hl, keyTurns_getD key nk (Nat.zero_le _) hi]
  rfl

/-- Word `i` of a schedule is made of the words `i - Nk` and `i - 1`. -/
theorem expandKey_getD_recurrence {key : List Byte} {nk i : Nat} (hl : key.length / 4 = nk) (hn : 0 < nk)
    (h1 : nk ≤ i) (h2 : i < nwOf nk) :
    (expandKey key).getD i Word.zero =
      Word.xor ((expandKey key).getD (i - nk) Word.zero)
        (keyTemp i nk ((expandKey key).getD (i - 1) Word.zero)) := by
  obtain ⟨k, rfl⟩ := Nat.exists_eq_add_of_le h1
  have hread : ∀ j, j < nk + k → (expandKey key).getD j Word.zero = (keyTurns key nk k).getD j Word.zero :=
    fun j hj => by rw [← keyTurns_all hl, keyTurns_getD key nk (by omega) hj]
  rw [hread (nk + k - nk) (by omega), hread (nk + k - 1) (by omega), ← keyTurns_all hl,
    keyTurns_getD key nk (k := k + 1) (by omega) (by omega), keyTurns_succ, expandTurn]
  simp

/-! ## Every edge keeps the invariant -/

theorem advance_inv {s : State} (h : s.Inv) : s.advance.Inv := h

theorem resetStep_inv (s : State) : (resetStep s).Inv :=
  (inv_idle_iff rfl).2 ⟨rfl, responseLegal_of_noResponse ⟨rfl, rfl, rfl⟩, rfl, rfl, rfl,
    .inl ⟨rfl, rfl, fun _ _ => rfl⟩⟩

/-- An error writes the response registers only, so what rule R27 says of the others still holds. -/
theorem raiseError_inv {s : State} (h : s.Inv) (hp : s.phase = .idle) (e : Err) : (raiseError s e).Inv := by
  obtain ⟨hw, -, hi⟩ := (inv_idle_iff hp).1 h
  exact (inv_idle_iff (s := raiseError s e) hp).2 ⟨hw, raiseError_responseLegal s e, hi⟩

/-- An accepted `KEXP` stores the words of its key, which are the first of its schedule (rule R129). -/
theorem kexpAccept_inv {s : State} (h : s.Inv) (hp : s.phase = .idle) {len : BitVec 6} (hl : len.toNat ∈ keyLengths)
    (data : BitVec 256) : (kexpAccept len data s).Inv := by
  obtain ⟨hrnd, -, hs⟩ := counters_of_idle h hp
  obtain ⟨hw, -, -⟩ := h
  obtain ⟨hk, hnk, hidx⟩ := kexpAccept_keySize hl data s
  obtain ⟨h4, h8, hnw⟩ := keySize_bounds hk
  have hd : Config.ksDepth = 60 := rfl
  have hbytes := keyBytes_length data len.toNat
  have hwords := keyWords_length (keyBytes data len.toNat) (len.toNat / 4)
  have hquot : 4 * (len.toNat / 4) = len.toNat := by
    obtain h | h | h := keyLengths_cases hl <;> omega
  refine (inv_kexp_iff rfl).2 ⟨memWriteList_wf hw (by omega), responseLegal_of_noResponse ⟨rfl, rfl, rfl⟩, hk, rfl,
    ⟨rfl, rfl, rfl⟩, hrnd, hs, by omega, by rw [State.nw]; omega, keyBytes data len.toNat, by omega, fun i hi => ?_⟩
  rw [hidx] at hi
  rw [kexpAccept_w, memRead_memWriteList_zero _ (by omega), expandKey_getD_of_lt (by omega) hi]

/-- An accepted block command keeps the schedule and starts counting at 0 (rules R143, R153). -/
theorem blockAccept_inv {s : State} (h : s.Inv) (hp : s.phase = .idle) (hv : s.ksValid = true) {ph : Phase}
    (hph : ph = .encRun ∨ ph = .decRun) (data : BitVec 256) : (blockAccept ph data s).Inv := by
  obtain ⟨hw, -, -, hidx, -, ⟨hf, -⟩ | ⟨-, hk⟩⟩ := (inv_idle_iff hp).1 h
  · simp [hv] at hf
  · exact (inv_block_iff hph).2 ⟨hw, responseLegal_of_noResponse ⟨rfl, rfl, rfl⟩, hv, hk, ⟨rfl, rfl, rfl⟩, hidx,
      Nat.zero_le _⟩

/-- `KIDX` counts up without wrapping, to `NW` at most (rule R21). -/
theorem kexpWord_kidx_toNat {s : State} (hk : s.keySize) (hi : s.kidx.toNat < s.nw) :
    (kexpWord s).kidx.toNat = s.kidx.toNat + 1 := by
  have hn := nr_bounds hk
  exact BitVec.toNat_add_of_lt (by simp; omega)

/-- A word step writes the next word of the schedule (rule R129). -/
theorem kexpWord_inv {s : State} (h : s.Inv) (hp : s.phase = .kexpRun) (hi : s.kidx.toNat < s.nw) :
    (kexpWord s).Inv := by
  obtain ⟨hw, -, hk, hv, hr, hrnd, hs, h1, h2, key, hkey, hag⟩ := (inv_kexp_iff hp).1 h
  obtain ⟨h4, h8, hnw⟩ := keySize_bounds hk
  have hd : Config.ksDepth = 60 := rfl
  have hnw' : s.nw = 4 * (s.nk.toNat + 7) := hnw
  have hidx := kexpWord_kidx_toNat hk hi
  refine (inv_kexp_iff (s := kexpWord s) hp).2 ⟨memWrite_wf _ hw (by omega), responseLegal_of_noResponse hr, hk, hv,
    hr, hrnd, hs, hidx ▸ Nat.le_succ_of_le h1, hidx ▸ hi, key, hkey, fun i hlt => ?_⟩
  rw [hidx] at hlt
  rw [kexpWord_w, memRead_memWrite]
  by_cases hx : s.kidx.toNat = i
  · rw [if_pos hx, hag _ (by omega), hag _ (by omega), hx]
    exact (expandKey_getD_recurrence (by omega) (by omega) (by omega) (hx ▸ hi)).symm
  · rw [if_neg hx, hag i (by omega)]

/-- The finishing step clears the words above the schedule, which is complete (rules R27, R129). -/
theorem kexpFinish_inv {s : State} (h : s.Inv) (hp : s.phase = .kexpRun) (hi : s.nw ≤ s.kidx.toNat) :
    (kexpFinish s).Inv := by
  obtain ⟨hw, -, hk, -, -, hrnd, hs, -, -, key, hkey, hag⟩ := (inv_kexp_iff hp).1 h
  obtain ⟨h4, h8, hnw⟩ := keySize_bounds hk
  have hd : Config.ksDepth = 60 := rfl
  have hnw' : s.nw = 4 * (s.nk.toNat + 7) := hnw
  refine (inv_idle_iff rfl).2 ⟨memWriteList_wf hw (by simp; omega), responseLegal_of_success rfl rfl, hrnd, rfl, hs,
    .inr ⟨rfl, hk, key, hkey, fun i hlt => ?_, fun i hge hlt => ?_⟩⟩
  · rw [kexpFinish_nw] at hlt
    rw [kexpFinish_w, memRead_memWriteList, if_neg (by omega), hag i (by omega)]
  · rw [kexpFinish_nw] at hge
    rw [kexpFinish_w, memRead_memWriteList, if_pos (by simp; omega), List.getD_replicate _ (by omega)]

/-- `RND` counts up without wrapping, to `NR` at most (rule R20). -/
theorem roundStep_rnd_toNat {s : State} (hk : s.keySize) (hl : s.roundsLeft) (g : Grid) :
    (roundStep g s).rnd.toNat = s.rnd.toNat + 1 ∧ s.rnd.toNat + 1 ≤ s.nr := by
  obtain ⟨h10, h14, -⟩ := nr_bounds hk
  have hlt : s.rnd.toNat < s.nr := by obtain h | h := hl <;> omega
  exact ⟨BitVec.toNat_add_of_lt (by simp; omega), hlt⟩

theorem roundStep_inv {s : State} (h : s.Inv) (hp : s.phase = .encRun ∨ s.phase = .decRun) (hl : s.roundsLeft)
    (g : Grid) : (roundStep g s).Inv := by
  obtain ⟨hw, hr, hv, hk, hn, hidx, -⟩ := (inv_block_iff hp).1 h
  obtain ⟨hrnd, hle⟩ := roundStep_rnd_toNat hk.1 hl g
  exact (inv_block_iff (s := roundStep g s) hp).2 ⟨hw, hr, hv, hk, hn, hidx, hrnd ▸ hle⟩

theorem blockFinish_inv {s : State} (h : s.Inv) (hp : s.phase = .encRun ∨ s.phase = .decRun) (out : Grid) :
    (blockFinish out s).Inv := by
  obtain ⟨hw, -, hv, hk, -, hidx, -⟩ := (inv_block_iff hp).1 h
  exact (inv_idle_iff rfl).2 ⟨hw, responseLegal_of_success rfl rfl, rfl, hidx, rfl, .inr ⟨hv, hk⟩⟩

theorem step_inv {s t : State} (h : s.Inv) (hs : step s = .next t) : t.Inv := by
  have ha := advance_inv h
  cases edgeResult_of_step hs with
  | reset => exact resetStep_inv _
  | error hi => exact raiseError_inv ha hi.1 _
  | kexpAccept hi hl => exact kexpAccept_inv ha hi.1 hl _
  | blockAccept hi _ hb hv => exact blockAccept_inv ha hi.1 hv hb.phase_cases _
  | quiet => exact ha
  | kexpWord _ hp hi => exact kexpWord_inv ha hp hi
  | kexpFinish _ hp hi => exact kexpFinish_inv ha hp hi
  | round g _ hb hl => exact roundStep_inv ha hb.phase_cases hl g
  | blockFinish _ hb => exact blockFinish_inv ha hb.phase_cases _

/-- Settles O32: every edge of `EdgeResult` keeps the invariant. -/
theorem stepKeepsStateInvariant : Obligations.StepKeepsStateInvariant := fun _ _ => step_inv

/-- Settles O33: `State.reset` is a reset step's result. -/
theorem resetSatisfiesInvariant : Obligations.ResetSatisfiesInvariant := resetStep_inv State.reset

/-- Settles O1: the cells of the empty memory read as zero. -/
theorem resetStateHoldsSpecValues : Obligations.ResetStateHoldsSpecValues := by
  unfold Obligations.ResetStateHoldsSpecValues
  exact ⟨rfl, rfl, rfl, Grid.get_zero, rfl, rfl, fun i _ => congrArg packWord (memRead_nil i), rfl, rfl, rfl⟩

/-! ## Registers and ports of a legal state -/

/-- A legal running state is in one of the two running invariants. -/
theorem running_cases {s : State} (h : s.Inv) (hp : s.phase ≠ .idle) :
    (s.phase = .kexpRun ∧ s.kexpInv) ∨ ((s.phase = .encRun ∨ s.phase = .decRun) ∧ s.blockInv) := by
  cases hq : s.phase with
  | idle => exact absurd hq hp
  | kexpRun =>
    obtain ⟨-, -, hk⟩ := (inv_kexp_iff hq).1 h
    exact .inl ⟨rfl, hk⟩
  | encRun =>
    obtain ⟨-, -, hb⟩ := (inv_block_iff (.inl hq)).1 h
    exact .inr ⟨.inl rfl, hb⟩
  | decRun =>
    obtain ⟨-, -, hb⟩ := (inv_block_iff (.inr hq)).1 h
    exact .inr ⟨.inr rfl, hb⟩

/-- A running command shows no response (rules R18, R25). -/
theorem noResponse_of_running {s : State} (h : s.Inv) (hp : s.phase ≠ .idle) : s.noResponse := by
  obtain ⟨-, -, -, hn, -⟩ | ⟨-, -, -, hn, -⟩ := running_cases h hp
  · exact hn
  · exact hn

/-- A legal running state names a key size (rule R13). -/
theorem keySize_of_running {s : State} (h : s.Inv) (hp : s.phase ≠ .idle) : s.keySize := by
  obtain ⟨-, hk, -⟩ | ⟨-, -, ⟨hk, -⟩, -⟩ := running_cases h hp
  · exact hk
  · exact hk

/-- `NK` is zero or a key size in every legal state (rule R13). -/
theorem nk_of_inv {s : State} (h : s.Inv) : s.nk = 0 ∨ s.keySize := by
  by_cases hp : s.phase = .idle
  · obtain ⟨-, -, -, -, -, ⟨-, hz, -⟩ | ⟨-, hk, -⟩⟩ := (inv_idle_iff hp).1 h
    · exact .inl hz
    · exact .inr hk
  · exact .inr (keySize_of_running h hp)

/-- Settles O39: the counters by phase, and the bounds of `NR` and `NW` for a key size. -/
theorem registersStayInRange : Obligations.RegistersStayInRange := by
  unfold Obligations.RegistersStayInRange
  intro s h
  have hnk : s.nk.toNat ∈ [0, 4, 6, 8] := (nk_of_inv h).elim (fun hz => by simp [hz]) (List.mem_cons_of_mem 0)
  have herr : s.rspErr.toNat ≤ 4 := by
    obtain ⟨-, ⟨herr, -⟩, -⟩ := h
    exact herr
  refine ⟨hnk, herr, ?_⟩
  cases hp : s.phase with
  | idle =>
    obtain ⟨hr, hi, -⟩ := counters_of_idle h hp
    simp [hr, hi]
  | kexpRun =>
    obtain ⟨-, -, hk, -, -, hr, -, h1, h2, -⟩ := (inv_kexp_iff hp).1 h
    have hw := nr_bounds hk
    simpa [hr, h1, h2] using (by omega : s.nw ≤ 60)
  | encRun =>
    obtain ⟨-, -, -, hk, -, hi, hr⟩ := (inv_block_iff (.inl hp)).1 h
    simp [hi, hr, nr_bounds hk.1]
  | decRun =>
    obtain ⟨-, -, -, hk, -, hi, hr⟩ := (inv_block_iff (.inr hp)).1 h
    simp [hi, hr, nr_bounds hk.1]

/-- Without a valid schedule the read port shows nothing (rules R24, R47). -/
theorem readPort_of_not_ksValid {s : State} (h : s.ksValid = false) (j : BitVec 6) :
    ksWordValid s j = false ∧ ksWord s j = 0 := by
  simp [ksWord, ksWordValid, h]

/-- Above the schedule the read port shows nothing (rules R24, R51). -/
theorem readPort_of_nw_le {s : State} {j : BitVec 6} (h : s.nw ≤ j.toNat) :
    ksWordValid s j = false ∧ ksWord s j = 0 := by
  simp [ksWord, ksWordValid, h]

/-- Inside a valid schedule the read port shows its word (rules R24, R47). -/
theorem readPort_of_lt {s : State} {j : BitVec 6} (hv : s.ksValid = true) (h : j.toNat < s.nw) :
    ksWordValid s j = true ∧ ksWord s j = packWord (memRead s.w j.toNat) := by
  simp [ksWord, ksWordValid, h, hv]

/-- `NK` zero or a key size bounds `NR` and `NW` (rule R14). -/
theorem nr_of_nk {s : State} (h : s.nk = 0 ∨ s.keySize) :
    s.nr = (if s.nk = 0 then 0 else s.nk.toNat + 6) ∧ s.nr ≤ 14 ∧ s.nw ≤ 60 := by
  obtain h | h := h
  · simp [State.nr, State.nw, nrOf, nwOf, h]
  · have hb := nr_bounds h
    have h4 := keySize_bounds h
    have hz : s.nk ≠ 0 := fun hz => by simp [hz] at h4
    rw [if_neg hz]
    exact ⟨nrOf_of_pos (by omega), by omega, by omega⟩

/-- Settles O40: the status ports are the registers, and the read port follows `KS_VALID` and `NW`. -/
theorem outputPortsShowRegisters : Obligations.OutputPortsShowRegisters := by
  unfold Obligations.OutputPortsShowRegisters
  intro s j hk
  obtain ⟨hnr, h14, h60⟩ := nr_of_nk hk
  refine ⟨by simp [ports], by simp [ports], rfl, rfl, rfl, rfl, rfl, ?_, readPort_of_lt, ?_,
    fun hj => (readPort_of_nw_le (by omega)).1, fun hI hp => ?_⟩
  · rw [← hnr]
    exact Nat.mod_eq_of_lt (by omega)
  · rintro (hv | hj)
    · exact readPort_of_not_ksValid hv j
    · exact readPort_of_nw_le hj
  · obtain ⟨-, -, -, hv, -⟩ := (inv_kexp_iff hp).1 hI
    exact (readPort_of_not_ksValid hv j).1

/-- Settles O41: the invariant gives the ports of a running state, and a step of `ENC_RUN` or `DEC_RUN` keeps the
registers the schedule ports show. -/
theorem runningCommandIsHidden : Obligations.RunningCommandIsHidden := by
  unfold Obligations.RunningCommandIsHidden
  intro s j hI hp
  obtain ⟨hv, he, hd⟩ := noResponse_of_running hI hp
  refine ⟨by simp [ports, hp], by simp [ports, hp], hv, he, hd, fun hk => ?_, fun hk hr t h => ?_⟩
  · obtain ⟨-, -, -, hv, -⟩ := (inv_kexp_iff hk).1 hI
    exact ⟨hv, readPort_of_not_ksValid hv j⟩
  · cases edgeResult_of_step h with
    | reset hr' => simp [hr] at hr'
    | error hi | kexpAccept hi | blockAccept hi => exact absurd hi.1 hp
    | quiet _ hq => exact absurd hq hp
    | kexpWord _ hq | kexpFinish _ hq => exact absurd hq hk
    | round | blockFinish => exact ⟨rfl, rfl, rfl, rfl, rfl⟩

end Sys2Proof.Machine
end

section
/-!
SUPPORT. How a command in progress ends: the edges it has left, that a running step does not read the samples, and the
simulation of the reference sequencer by the atomic core.
-/

namespace Sys2Proof.Machine

/-! ## No legal state stops -/

theorem step_next_of_inv {s : State} (h : s.Inv) : ∃ t, step s = .next t := by
  obtain ⟨-, hs⟩ | ⟨i, -, hs⟩ | ⟨-, -, -, hs⟩ | ⟨-, hp, hs⟩ | ⟨-, hp, hs⟩ | ⟨-, hp, hs⟩ := step_cases s <;> rw [hs]
  · exact ⟨_, rfl⟩
  · obtain ⟨_, -, hx, -⟩ | ⟨_, _, -, -, hx, -⟩ | ⟨_, _, -, -, hx, -⟩ | ⟨_, _, -, -, hx, -⟩ :=
      command_cases i s.advance <;> exact ⟨_, hx⟩
  · exact ⟨_, rfl⟩
  · obtain ⟨-, -, hk, -, -, -, -, h1, -⟩ := (inv_kexp_iff hp).1 h
    obtain ⟨-, -, hx⟩ | ⟨-, hx⟩ | ⟨f, hi, hf, -⟩ := kexpStep_cases s.advance
    · exact ⟨_, hx⟩
    · exact ⟨_, hx⟩
    · cases (kexpIndexFault_none hk h1 hi).symm.trans hf
  · have hk : s.advance.keySize := keySize_of_running h (by simp [hp])
    obtain ⟨-, hx⟩ | ⟨-, -, hx⟩ | ⟨-, -, hx⟩ := encStep_cases hk <;> exact ⟨_, hx⟩
  · have hk : s.advance.keySize := keySize_of_running h (by simp [hp])
    obtain ⟨-, hx⟩ | ⟨-, -, hx⟩ | ⟨-, -, hx⟩ := decStep_cases hk <;> exact ⟨_, hx⟩

/-! ## The edges a command in progress has left -/

/-- The edges of the reference sequencer until the command in progress has its response (rule R190). -/
def State.edgesLeft (s : State) : Nat :=
  match s.phase with
  | .idle => 0
  | .kexpRun => s.nw - s.kidx.toNat + 1
  | .encRun => s.nr - s.rnd.toNat + 1
  | .decRun => s.nr - s.rnd.toNat + 1

theorem edgesLeft_kexp {s : State} (hp : s.phase = .kexpRun) : s.edgesLeft = s.nw - s.kidx.toNat + 1 := by
  simp [State.edgesLeft, hp]

theorem edgesLeft_block {s : State} (hp : s.phase = .encRun ∨ s.phase = .decRun) :
    s.edgesLeft = s.nr - s.rnd.toNat + 1 := by
  obtain hp | hp := hp <;> simp [State.edgesLeft, hp]

theorem edgesLeft_pos {s : State} (hp : s.phase ≠ .idle) : 0 < s.edgesLeft := by
  cases hq : s.phase with
  | idle => exact absurd hq hp
  | kexpRun => rw [edgesLeft_kexp hq]; omega
  | encRun => rw [edgesLeft_block (.inl hq)]; omega
  | decRun => rw [edgesLeft_block (.inr hq)]; omega

/-- The bound of the reference timing: that of a 32-byte key (rule R190). -/
theorem edgesLeft_bounds {s : State} (h : s.Inv) (hp : s.phase ≠ .idle) : 1 ≤ s.edgesLeft ∧ s.edgesLeft ≤ 53 := by
  refine ⟨edgesLeft_pos hp, ?_⟩
  have hk := keySize_of_running h hp
  obtain ⟨h4, h8, -⟩ := keySize_bounds hk
  have hn := nr_bounds hk
  have hr : s.nr = s.nk.toNat + 6 := nrOf_of_pos (by omega)
  obtain ⟨hq, -, -, -, -, -, h1, -⟩ | ⟨hq, -⟩ := running_cases h hp
  · rw [edgesLeft_kexp hq]; omega
  · rw [edgesLeft_block hq]; omega

/-- The ports show only these registers, and the schedule only where it is valid (rule R24). -/
theorem ports_congr {s t : State} (hp : t.phase = .idle ↔ s.phase = .idle) (hv : t.rspValid = s.rspValid)
    (he : t.rspErr = s.rspErr) (hd : t.rspData = s.rspData) (hk : t.ksValid = s.ksValid) (hn : t.nk = s.nk)
    (hw : s.ksValid = true → t.w = s.w) (j : BitVec 6) : ports t j = ports s j := by
  have hnr : t.nr = s.nr := congrArg (fun k : BitVec 4 => nrOf k.toNat) hn
  have hnw : t.nw = s.nw := congrArg (fun k : BitVec 4 => nwOf k.toNat) hn
  have hvalid : ksWordValid t j = ksWordValid s j := by simp [ksWordValid, hk, hnw]
  have hword : ksWord t j = ksWord s j := by
    cases hs : s.ksValid with
    | false => rw [(readPort_of_not_ksValid (hk.trans hs) j).2, (readPort_of_not_ksValid hs j).2]
    | true => rw [ksWord, ksWord, hvalid, hw hs]
  simp [ports, hp, hv, he, hd, hk, hn, hnr, hvalid, hword]

/-- A step of a command in progress without a reset: one edge less is left and the ports stay, or it was the last one
and the core is idle with a response of no error (rules R22, R25). -/
theorem running_step {s t : State} (h : s.Inv) (hp : s.phase ≠ .idle) (hr : s.pins.rst = false)
    (hs : step s = .next t) :
    (t.phase ≠ .idle ∧ s.edgesLeft = t.edgesLeft + 1 ∧ ∀ j, ports t j = ports s j) ∨
      (s.edgesLeft = 1 ∧ t.phase = .idle ∧ t.rspValid = true ∧ t.rspErr = 0) := by
  have hk := keySize_of_running h hp
  cases edgeResult_of_step hs with
  | reset hr' => simp [hr] at hr'
  | error hi | kexpAccept hi | blockAccept hi => exact absurd hi.1 hp
  | quiet _ hq => exact absurd hq hp
  | kexpWord _ hq hi =>
    obtain ⟨-, -, -, hv, -⟩ := (inv_kexp_iff hq).1 h
    have hidx := kexpWord_kidx_toNat (s := s.advance) hk hi
    refine .inl ⟨hp, ?_, ports_congr .rfl rfl rfl rfl rfl rfl (by simp [hv])⟩
    rw [edgesLeft_kexp hq, edgesLeft_kexp (s := kexpWord s.advance) hq, hidx, kexpWord_nw, advance_nw,
      advance_kidx]
    omega
  | kexpFinish _ hq hi => exact .inr ⟨by rw [edgesLeft_kexp hq]; omega, rfl, rfl, rfl⟩
  | round g _ hb hl =>
    obtain ⟨hrnd, hle⟩ := roundStep_rnd_toNat (s := s.advance) hk hl g
    refine .inl ⟨hp, ?_, ports_congr .rfl rfl rfl rfl rfl rfl fun _ => rfl⟩
    rw [edgesLeft_block hb.phase_cases, edgesLeft_block (s := roundStep g s.advance) hb.phase_cases, hrnd, roundStep_nr]
    simp only [advance_nr, advance_rnd] at hle ⊢
    omega
  | blockFinish _ hb hl =>
    exact .inr ⟨by rw [edgesLeft_block hb.phase_cases]; omega, rfl, rfl, rfl⟩

theorem step_inputs {s t : State} (h : step s = .next t) : t.inputs = s.inputs.tail :=
  everyEdgeUsesUpOneSample s t h

/-- A command in progress ends when its edges are used up without a reset. -/
theorem run_edgesLeft {n : Nat} {s : State} (h : s.Inv) (hp : s.phase ≠ .idle) (hn : s.edgesLeft = n)
    (hr : s.noReset n) : ∃ t, run n s = .next t ∧ t.phase = .idle ∧ t.rspValid = true ∧ t.rspErr = 0 := by
  induction n generalizing s with
  | zero => exact absurd hn (edgesLeft_pos hp).ne'
  | succ n ih =>
    obtain ⟨t, hs⟩ := step_next_of_inv h
    rw [run_succ_left n hs]
    obtain ⟨hq, hl, -⟩ | ⟨hl, hend⟩ := running_step h hp (noReset_pins hr n.succ_pos) hs
    · have ht : t.noReset n := by
        have ha := noReset_advance hr
        rwa [State.noReset, advance_inputs, ← step_inputs hs] at ha
      exact ih (step_inv h hs) hq (by omega) ht
    · obtain rfl : n = 0 := by omega
      exact ⟨t, rfl, hend⟩

/-- Settles O35: the number of edges is `edgesLeft`. -/
theorem runningCommandEnds : Obligations.RunningCommandEnds := by
  unfold Obligations.RunningCommandEnds
  intro s h hp
  obtain ⟨h1, h53⟩ := edgesLeft_bounds h hp
  exact ⟨s.edgesLeft, h1, h53, run_edgesLeft h hp rfl⟩

/-- Settles O28: the runs of a `KEXP`, an `ENC` and a `DEC` in closed form end in the result of the command. -/
theorem commandRunReachesAtomicResult : Obligations.CommandRunReachesAtomicResult :=
  fun _ _ hI hi hr => run_reference_result hI hi hr

/-! ## Other samples -/

/-- The state with other samples of the coming edges. -/
def State.withInputs (s : State) (l : List Pins) : State := { s with inputs := l }

@[simp] theorem withInputs_ksValid (s : State) (l : List Pins) : (s.withInputs l).ksValid = s.ksValid := rfl
@[simp] theorem withInputs_nk (s : State) (l : List Pins) : (s.withInputs l).nk = s.nk := rfl
@[simp] theorem withInputs_rnd (s : State) (l : List Pins) : (s.withInputs l).rnd = s.rnd := rfl
@[simp] theorem withInputs_kidx (s : State) (l : List Pins) : (s.withInputs l).kidx = s.kidx := rfl
@[simp] theorem withInputs_phase (s : State) (l : List Pins) : (s.withInputs l).phase = s.phase := rfl
@[simp] theorem withInputs_nr (s : State) (l : List Pins) : (s.withInputs l).nr = s.nr := rfl
@[simp] theorem withInputs_nw (s : State) (l : List Pins) : (s.withInputs l).nw = s.nw := rfl
@[simp] theorem withInputs_inputs (s : State) (l : List Pins) : (s.withInputs l).inputs = l := rfl
@[simp] theorem withInputs_withInputs (s : State) (l m : List Pins) :
    (s.withInputs l).withInputs m = s.withInputs m := rfl

theorem kexpStep_withInputs {s t : State} (h : kexpStep s = .next t) (l : List Pins) :
    kexpStep (s.withInputs l) = .next (t.withInputs l) := by
  by_cases hi : s.kidx.toNat < s.nw
  · cases hf : kexpIndexFault s.nk.toNat s.kidx.toNat <;> simp [kexpStep, hi, hf] at h ⊢
    rw [← h]; rfl
  · simp [kexpStep, hi] at h ⊢
    rw [← h]; rfl

theorem encStep_withInputs {s t : State} (h : encStep s = .next t) (l : List Pins) :
    encStep (s.withInputs l) = .next (t.withInputs l) := by
  by_cases h0 : s.rnd.toNat = 0
  · simp [encStep, h0] at h ⊢
    rw [← h]; rfl
  · by_cases h1 : s.rnd.toNat < s.nr
    · cases hf : roundKeyFault s.rnd.toNat <;> simp [encStep, h0, h1, hf] at h ⊢
      rw [← h]; rfl
    · cases hf : roundKeyFault s.nr <;> simp [encStep, h0, h1, hf] at h ⊢
      rw [← h]; rfl

theorem decStep_withInputs {s t : State} (h : decStep s = .next t) (l : List Pins) :
    decStep (s.withInputs l) = .next (t.withInputs l) := by
  by_cases h0 : s.rnd.toNat = 0
  · cases hf : roundKeyFault s.nr <;> simp [decStep, h0, hf] at h ⊢
    rw [← h]; rfl
  · by_cases h1 : s.rnd.toNat < s.nr
    · cases hf : roundKeyFault (s.nr - s.rnd.toNat) <;> simp [decStep, h0, h1, hf] at h ⊢
      rw [← h]; rfl
    · simp [decStep, h0, h1] at h ⊢
      rw [← h]; rfl

/-- A running command goes on in the same way whatever the host drives, resets apart (rules R22, R184). -/
theorem step_running_withInputs {s t : State} (hp : s.phase ≠ .idle) (hr : s.pins.rst = false) (h : step s = .next t)
    {l : List Pins} (hl : (s.withInputs l).pins.rst = false) :
    step (s.withInputs l) = .next (t.withInputs l.tail) := by
  cases hq : s.phase with
  | idle => exact absurd hq hp
  | kexpRun =>
    rw [step_kexpRun hq hr] at h
    rw [step_kexpRun (s := s.withInputs l) hq hl]
    exact kexpStep_withInputs h l.tail
  | encRun =>
    rw [step_encRun hq hr] at h
    rw [step_encRun (s := s.withInputs l) hq hl]
    exact encStep_withInputs h l.tail
  | decRun =>
    rw [step_decRun hq hr] at h
    rw [step_decRun (s := s.withInputs l) hq hl]
    exact decStep_withInputs h l.tail

theorem acceptError_withInputs (i : Instr) (s : State) (l : List Pins) :
    acceptError i (s.withInputs l) = acceptError i s := by cases i <;> rfl

theorem commandLatency_withInputs (c : Config.Latency) (i : Instr) (s : State) (l : List Pins) :
    commandLatency c i (s.withInputs l) = commandLatency c i s := by cases i <;> rfl

theorem commandResult_withInputs (i : Instr) (s : State) (l : List Pins) :
    commandResult i (s.withInputs l) = (commandResult i s).withInputs l := by
  simp only [commandResult, acceptError_withInputs]
  cases acceptError i s with
  | some e => rfl
  | none => cases i <;> rfl

/-- The accept step does not read the samples to come. -/
theorem exec_withInputs {i : Instr} {s t : State} (h : exec i s = .next t) (l : List Pins) :
    exec i (s.withInputs l) = .next (t.withInputs l) := by
  cases i with
  | rsvd len data => cases h; rfl
  | kexp len data =>
    cases he : keyError len <;> simp [exec, execKexp, he] at h ⊢ <;> rw [← h] <;> rfl
  | enc len data =>
    cases he : blockError len s.ksValid <;> simp [exec, execEnc, he] at h ⊢ <;> rw [← h] <;> rfl
  | dec len data =>
    cases he : blockError len s.ksValid <;> simp [exec, execDec, he] at h ⊢ <;> rw [← h] <;> rfl

/-! ## The simulation -/

/-- The sequencer in `s` shows the ports of the atomic core: idle in the same registers; or running, with the same
ports, as many edges left, and after them, under a host that drives nothing, in the registers the atomic core waits
for (rule R25). -/
inductive ShowsAs : State → AtomicCore → Prop
  | idle {s : State} (hp : s.phase = .idle) : ShowsAs s ⟨s, none⟩
  | running {s b r : State} (hp : s.phase ≠ .idle) (hin : b.inputs = s.inputs) (hports : ∀ j, ports s j = ports b j)
      (hrun : run s.edgesLeft (s.withInputs []) = .next (r.withInputs [])) : ShowsAs s ⟨b, some (s.edgesLeft, r)⟩

theorem ShowsAs.ports_eq {s : State} {a : AtomicCore} (h : ShowsAs s a) (j : BitVec 6) :
    ports s j = ports a.regs j := by
  cases h with
  | idle => rfl
  | running _ _ hports => exact hports j

/-- After an accept edge that starts a run, the run without a reset leads to the command's result. -/
theorem run_of_accept {s t : State} {i : Instr} (hI : s.Inv) (hi : s.presents i) (hx : exec i s = .next t) :
    run (commandLatency Config.Latency.reference i s) (t.withInputs []) =
      .next ((commandResult i s).withInputs []) := by
  obtain ⟨hp, hr, hc, hcmd⟩ := hi
  have hi' : (s.withInputs [s.pins]).presents i := ⟨hp, hr, hc, hcmd⟩
  have hr' : ∀ n, (s.withInputs [s.pins]).noReset n := fun n p hm => by
    obtain rfl : p = s.pins := by simpa using List.mem_of_mem_take hm
    exact hr
  have hstep : step (s.withInputs [s.pins]) = .next (t.withInputs []) :=
    step_accept_next hi' (exec_withInputs hx [s.pins])
  have hrun := run_reference_result (s := s.withInputs [s.pins]) hI hi' (hr' _)
  rw [run_succ_left _ hstep, commandLatency_withInputs, commandResult_withInputs] at hrun
  rw [hrun]
  simp [State.afterEdges, State.withInputs]

/-- At an accept edge: an error, answered at once; or the start of a run of the reference
latency, which shows the ports of the busy atomic core (rules R25, R190). -/
theorem accept_cases (i : Instr) (s : State) :
    (∃ e, exec i s = .next (raiseError s e) ∧ commandResult i s = raiseError s e ∧
        commandLatency Config.Latency.reference i s = 0) ∨
      (∃ t, exec i s = .next t ∧ t.phase ≠ .idle ∧ commandLatency Config.Latency.reference i s = t.edgesLeft ∧
        ∀ j, ports t j = ports (busyState i s) j) := by
  obtain ⟨e, -, hx, hres, hl⟩ | ⟨len, data, rfl, hlen, hx, -, hl⟩ | ⟨len, data, rfl, hv, hx, -, hl⟩ |
    ⟨len, data, rfl, hv, hx, -, hl⟩ := command_cases i s
  · exact .inl ⟨e, hx, hres, hl _⟩
  · obtain ⟨hk, hnk, hidx⟩ := kexpAccept_keySize hlen data s
    obtain ⟨-, -, hnw⟩ := keySize_bounds hk
    refine .inr ⟨_, hx, nofun, ?_, ports_congr .rfl rfl rfl rfl rfl rfl nofun⟩
    rw [hl, edgesLeft_kexp rfl, State.nw, hnw, hidx, hnk]
    rfl
  · exact .inr ⟨_, hx, nofun, hl _, fun _ => rfl⟩
  · exact .inr ⟨_, hx, nofun, hl _, fun _ => rfl⟩

/-- An accept edge leads both machines to the command's error, or makes them busy with the same ports. -/
theorem showsAs_accept {s t : State} {i : Instr} (hI : s.Inv) (hi : s.presents i) (hs : step s = .next t) :
    ShowsAs t (atomicAccept Config.Latency.reference i s.advance) := by
  rw [atomicAccept, commandLatency_advance, commandResult_advance]
  obtain ⟨e, hx, hres, hl⟩ | ⟨u, hx, hp, hl, hports⟩ := accept_cases i s <;>
    obtain rfl : _ = t := by simpa [step_accept_next hi hx] using hs
  · rw [hl, hres]
    exact .idle hi.1
  · have hrun := run_of_accept hI hi hx
    rw [hl] at hrun ⊢
    obtain ⟨n, hn⟩ := Nat.exists_eq_add_one.2 (edgesLeft_pos hp)
    simp only [hn]
    rw [← hn]
    refine .running (s := u.advance) hp ?_ (fun j => (hports j).trans ?_) hrun
    · rw [busyState_inputs, step_inputs hs, advance_inputs]
    · cases i <;> rfl

theorem atomicStep_reset (l : Config.Latency) {b : State} (p : Option (Nat × State)) (hr : b.pins.rst = true) :
    atomicStep l ⟨b, p⟩ = ⟨resetStep b.advance, none⟩ := by simp [atomicStep, atomicEdge, hr]

theorem atomicStep_accept (l : Config.Latency) {s : State} {i : Instr} (hi : s.presents i) :
    atomicStep l ⟨s, none⟩ = atomicAccept l i s.advance := by
  obtain ⟨-, hr, hc, rfl⟩ := hi
  simp [atomicStep, atomicEdge, hr, hc]

theorem atomicStep_quiet (l : Config.Latency) {s : State} (hr : s.pins.rst = false) (hc : s.pins.cmdValid = false) :
    atomicStep l ⟨s, none⟩ = ⟨s.advance, none⟩ := by simp [atomicStep, atomicEdge, hr, hc]

theorem atomicStep_pending (l : Config.Latency) {b r : State} (hr : b.pins.rst = false) {n : Nat} (hn : 0 < n) :
    atomicStep l ⟨b, some (n + 1, r)⟩ = ⟨b.advance, some (n, r)⟩ := by
  simp [atomicStep, atomicEdge, hr, Nat.ne_of_gt hn]

theorem atomicStep_last (l : Config.Latency) {b r : State} (hr : b.pins.rst = false) :
    atomicStep l ⟨b, some (1, r)⟩ = ⟨r.withInputs b.inputs.tail, none⟩ := by
  simp [atomicStep, atomicEdge, hr, State.withInputs]

/-- From an idle state both machines reset, accept, or do nothing. -/
theorem showsAs_step_idle {s t : State} (hI : s.Inv) (hp : s.phase = .idle) (hs : step s = .next t) :
    ShowsAs t (atomicStep Config.Latency.reference ⟨s, none⟩) := by
  obtain ⟨hr, hx⟩ | ⟨i, hi, -⟩ | ⟨hr, -, hc, hx⟩ | ⟨-, hq, -⟩ | ⟨-, hq, -⟩ | ⟨-, hq, -⟩ := step_cases s
  · obtain rfl : _ = t := by simpa [hx] using hs
    rw [atomicStep_reset _ _ hr]
    exact .idle rfl
  · rw [atomicStep_accept _ hi]
    exact showsAs_accept hI hi hs
  · obtain rfl : _ = t := by simpa [hx] using hs
    rw [atomicStep_quiet _ hr hc]
    exact .idle hp
  all_goals simp [hp] at hq

/-- While a command runs both machines reset, count down one edge, or reach the result together. -/
theorem showsAs_step_running {s t b r : State} (hI : s.Inv) (hp : s.phase ≠ .idle) (hin : b.inputs = s.inputs)
    (hports : ∀ j, ports s j = ports b j) (hrun : run s.edgesLeft (s.withInputs []) = .next (r.withInputs []))
    (hs : step s = .next t) : ShowsAs t (atomicStep Config.Latency.reference ⟨b, some (s.edgesLeft, r)⟩) := by
  have hpins : b.pins = s.pins := by rw [State.pins, State.pins, hin]
  cases hr : s.pins.rst with
  | true =>
    obtain rfl : _ = t := by simpa [step_reset hr] using hs
    have hreset : resetStep b.advance = resetStep s.advance := by simp [resetStep, hin]
    rw [atomicStep_reset _ _ (hpins ▸ hr), hreset]
    exact .idle rfl
  | false =>
    have hquiet : step (s.withInputs []) = .next (t.withInputs []) := step_running_withInputs hp hr hs rfl
    obtain ⟨hq, hl, hsame⟩ | ⟨hl, hq, -⟩ := running_step hI hp hr hs
    · rw [hl, run_succ_left _ hquiet] at hrun
      rw [hl, atomicStep_pending _ (hpins ▸ hr) (edgesLeft_pos hq)]
      refine .running hq ?_ (fun j => (hsame j).trans (hports j)) hrun
      rw [advance_inputs, hin, step_inputs hs]
    · rw [hl, run_succ_left _ hquiet] at hrun
      have hres : t.withInputs [] = r.withInputs [] := by simpa using hrun
      rw [hl, atomicStep_last _ (hpins ▸ hr), ← withInputs_withInputs r [], ← hres, hin, ← step_inputs hs]
      exact .idle hq

theorem showsAs_step {s t : State} {a : AtomicCore} (hI : s.Inv) (h : ShowsAs s a) (hs : step s = .next t) :
    ShowsAs t (atomicStep Config.Latency.reference a) := by
  cases h with
  | idle hp => exact showsAs_step_idle hI hp hs
  | running hp hin hports hrun => exact showsAs_step_running hI hp hin hports hrun hs

theorem run_showsAs (n : Nat) {s : State} {a : AtomicCore} (hI : s.Inv) (h : ShowsAs s a) :
    ∃ t, run n s = .next t ∧ ShowsAs t (atomicRun Config.Latency.reference n a) := by
  induction n generalizing s a with
  | zero => exact ⟨s, rfl, h⟩
  | succ n ih =>
    obtain ⟨t, hs⟩ := step_next_of_inv hI
    rw [run_succ_left n hs]
    exact ih (step_inv hI hs) (showsAs_step hI h hs)

/-- Settles O30: the simulation holds at the start and after every edge, and its states show the same ports. -/
theorem portsCannotTellAtomicFromSequencer : Obligations.PortsCannotTellAtomicFromSequencer := by
  unfold Obligations.PortsCannotTellAtomicFromSequencer
  intro s n hI hp
  obtain ⟨t, hrun, h⟩ := run_showsAs n hI (.idle hp)
  exact ⟨t, hrun, h.ports_eq⟩

end Sys2Proof.Machine
end

section
/-!
SUPPORT. The byte orders of the memory chapter: the lanes of a packed word and of a packed block, the grid of a block,
and the key bus as words.
-/

namespace Sys2Proof.Machine

/-! ## Lanes of the packed buses (rules R11, R41)

Both packings append bytes: the library's two rules for `x ++ b` read the lane of `b` at the bottom and every other lane
in `x`. They name the width as the sum `n + 8`, so the proofs restate the bus with that sum and keep `simp` from
evaluating it. -/

theorem packWord_lane (w : Word) (k : Fin 4) : (packWord w).extractLsb' (24 - 8 * k.val) 8 = w.get k := by
  change (w.a0 ++ w.a1 ++ w.a2 ++ w.a3).extractLsb' (24 - 8 * k.val) 8 = w.get k
  fin_cases k <;> simp [-Nat.reduceAdd, Word.get, BitVec.extractLsb'_append_eq_of_le, BitVec.extractLsb'_append_eq_right]

/-- The response bus read as a block is the block that was packed on it. -/
theorem unpackBlock_packBlock (b : Block) : unpackBlock (packBlock b) = b := by
  funext i
  change (b 0 ++ b 1 ++ b 2 ++ b 3 ++ b 4 ++ b 5 ++ b 6 ++ b 7 ++ b 8 ++ b 9 ++ b 10 ++ b 11 ++ b 12 ++ b 13 ++ b 14 ++
    b 15).extractLsb' (120 - 8 * i.val) 8 = b i
  fin_cases i <;> simp [-Nat.reduceAdd, BitVec.extractLsb'_append_eq_of_le, BitVec.extractLsb'_append_eq_right]

/-- Settles O42: each lane of a packed bus is one of the bytes appended to form it. -/
theorem busLanesAreBigEndian : Obligations.BusLanesAreBigEndian :=
  ⟨fun b => congrFun (unpackBlock_packBlock b), packWord_lane⟩

/-! ## The grid of a block (rules R42, R43) -/

@[simp] theorem loadState_get (b : Block) (c r : Fin 4) : (loadState b).get c r = b ⟨4 * c.val + r.val, by omega⟩ := by
  simp [loadState]

theorem storeState_loadState (b : Block) : storeState (loadState b) = b := by
  funext i
  simp [storeState, Nat.div_add_mod]

theorem loadState_storeState (s : Grid) : loadState (storeState s) = s := by
  ext c r
  have hc : (4 * c.val + r.val) / 4 = c.val := by omega
  have hr : (4 * c.val + r.val) % 4 = r.val := by omega
  simp [storeState, hc, hr]

/-- Settles O44: `4·(i div 4) + i mod 4 = i`, and `4c + r` has the quotient `c` and the remainder `r`. -/
theorem loadAndStoreStateAreInverse : Obligations.LoadAndStoreStateAreInverse :=
  ⟨storeState_loadState, loadState_storeState⟩

/-! ## The key bus as words (rules R40, R48, R123) -/

theorem keyBytes_getD (data : BitVec 256) {len i : Nat} (h : i < len) :
    (keyBytes data len).getD i 0 = dataByte data i := by
  simp [keyBytes, h]

theorem keyWords_getD (key : List Byte) {nk j : Nat} (h : j < nk) :
    (keyWords key nk).getD j Word.zero =
      ⟨key.getD (4 * j) 0, key.getD (4 * j + 1) 0, key.getD (4 * j + 2) 0, key.getD (4 * j + 3) 0⟩ := by
  simp [keyWords, h]

/-- Four neighbouring lanes of the data bus, packed as a word, are a 32-bit piece of it. -/
theorem packWord_dataBytes (data : BitVec 256) {j : Nat} (h : j < 8) :
    packWord ⟨dataByte data (4 * j), dataByte data (4 * j + 1), dataByte data (4 * j + 2), dataByte data (4 * j + 3)⟩ =
      data.extractLsb' (224 - 32 * j) 32 := by
  have hlane : 248 - 8 * (4 * j + 3) = 224 - 32 * j := by omega
  simp only [packWord, dataByte]
  rw [BitVec.extractLsb'_append_extractLsb'_eq_extractLsb' (by omega),
    BitVec.extractLsb'_append_extractLsb'_eq_extractLsb' (by omega),
    BitVec.extractLsb'_append_extractLsb'_eq_extractLsb' (by omega), hlane]

/-- Settles O43: the first words of the schedule are the key's words, which are made of neighbouring lanes. -/
theorem keyBusCutIntoWords : Obligations.KeyBusCutIntoWords := by
  unfold Obligations.KeyBusCutIntoWords
  intro len data hl j hj
  have hlen : len.toNat ≤ 32 := by
    obtain h | h | h := keyLengths_cases hl <;> omega
  rw [expandKey_getD_of_lt (congrArg (· / 4) (keyBytes_length data len.toNat)) hj, keyWords_getD _ hj,
    keyBytes_getD _ (by omega), keyBytes_getD _ (by omega), keyBytes_getD _ (by omega), keyBytes_getD _ (by omega),
    packWord_dataBytes _ (by omega)]

/-! ## No access leaves its space (rules R22, R46) -/

/-- Settles O34: the index checks of the running steps pass in every legal state. -/
theorem legalStatesNeverStop : Obligations.LegalStatesNeverStop := fun _ => step_next_of_inv

end Sys2Proof.Machine
end

section
/-!
SUPPORT. The command word: unpacking and packing its fields are inverse, and so are decoding and encoding; which data
lanes the accept step of a command reads.
-/

namespace Sys2Proof.Machine

/-! ## Packing and unpacking the fields (rule R61) -/

/-- The fields are neighbouring pieces of the word, from its top bit to bit 0. -/
theorem packCommand_fields (cmd : CmdWord) : packCommand cmd.op cmd.len cmd.data = cmd := by
  simp only [packCommand, CmdWord.op, CmdWord.len, CmdWord.data]
  rw [BitVec.extractLsb'_append_extractLsb'_eq_extractLsb' (by omega),
    BitVec.extractLsb'_append_extractLsb'_eq_extractLsb' (by omega), BitVec.extractLsb'_eq_self]

theorem decode_packCommand (op : BitVec 2) (len : BitVec 6) (data : BitVec 256) :
    decode (packCommand op len data) = decodePorts op len data := by
  obtain ⟨-, hop, hlen, hdata⟩ := Laws.TableRow.fields_packCommand op len data
  rw [decode, hop, hlen, hdata]

/-! ## Decoding and encoding (rule R62) -/

/-- Each of the four opcodes selects a command with that opcode and the fields as they stand. -/
theorem encode_decodePorts (op : BitVec 2) (len : BitVec 6) (data : BitVec 256) :
    encode (decodePorts op len data) = packCommand op len data := by
  have hop : op = 0b00#2 ∨ op = 0b01#2 ∨ op = 0b10#2 ∨ op = 0b11#2 := by revert op; decide
  rcases hop with rfl | rfl | rfl | rfl <;> rfl

theorem encode_decode (cmd : CmdWord) : encode (decode cmd) = cmd :=
  (encode_decodePorts cmd.op cmd.len cmd.data).trans (packCommand_fields cmd)

theorem decode_encode (i : Instr) : decode (encode i) = i := by
  rw [encode, decode_packCommand]
  cases i <;> rfl

/-- Settles O10: the fields of a packed word are those packed, and each command's opcode selects its constructor. -/
theorem decodeOfEncodeIsIdentity : Obligations.DecodeOfEncodeIsIdentity := decode_encode

/-- Settles O11: `encode` and `decode` are inverse in both directions. -/
theorem everyWordEncodesOneCommand : Obligations.EveryWordEncodesOneCommand :=
  fun cmd => ⟨encode_decode cmd, fun i h => h ▸ (decode_encode i).symm⟩

/-! ## The data lanes an accept step reads (rule R64) -/

theorem keyBytes_congr {d e : BitVec 256} {len : Nat} (h : ∀ i, i < len → dataByte d i = dataByte e i) :
    keyBytes d len = keyBytes e len :=
  List.map_congr_left fun i hi => h i (List.mem_range.mp hi)

theorem dataBlock_congr {d e : BitVec 256} (h : ∀ i, i < 16 → dataByte d i = dataByte e i) :
    dataBlock d = dataBlock e :=
  funext fun i => h i i.isLt

/-- `KEXP` reads its data only where it passes its check, and then only the bytes of the key. -/
theorem exec_kexp_congr {len : BitVec 6} {d e : BitVec 256} (s : State)
    (h : len.toNat ∈ keyLengths → keyBytes d len.toNat = keyBytes e len.toNat) :
    exec (.kexp len d) s = exec (.kexp len e) s := by
  obtain ⟨hl, he⟩ | ⟨-, he⟩ := keyError_cases len
  · simp [exec, execKexp, he, kexpAccept, h hl]
  · simp [exec, execKexp, he]

/-- `ENC` and `DEC` read their data only where they pass their checks, and then only the block. -/
theorem exec_block_congr {len : BitVec 6} {d e : BitVec 256} {s : State}
    (h : len.toNat = 16 → s.ksValid = true → dataBlock d = dataBlock e) :
    exec (.enc len d) s = exec (.enc len e) s ∧ exec (.dec len d) s = exec (.dec len e) s := by
  obtain ⟨hl, hv, he⟩ | ⟨-, -, he⟩ | ⟨-, he⟩ := blockError_cases len s.ksValid
  · simp [exec, execEnc, execDec, he, encAccept, decAccept, blockAccept, h hl hv]
  all_goals simp [exec, execEnc, execDec, he]

/-- Settles O12: the data of an accepted command enters through `keyBytes` or `dataBlock`, that of any other not at
all. -/
theorem ignoredDataLanesHaveNoEffect : Obligations.IgnoredDataLanesHaveNoEffect := by
  unfold Obligations.IgnoredDataLanesHaveNoEffect
  intro len d e s
  refine ⟨fun h => exec_kexp_congr s fun hl => keyBytes_congr fun i hi => h i hi ?_,
    fun h => exec_block_congr fun _ _ => dataBlock_congr h, fun h => exec_kexp_congr s fun hl => absurd hl h,
    fun h => exec_block_congr fun hl hv => ?_, rfl⟩
  · obtain hk | hk | hk := keyLengths_cases hl <;> omega
  · simp [hl, hv] at h

/-! ## Accepting the decoded command (rules R63, R184) -/

theorem placeCommand_presents (s : State) (cmd : CmdWord) : (placeCommand s cmd).presents (decode cmd) :=
  ⟨rfl, rfl, rfl, rfl⟩

/-- Settles O4: the command on the ports is the one their word decodes to, and a placed word is presented. -/
theorem acceptEdgeRunsDecodedCommand : Obligations.AcceptEdgeRunsDecodedCommand := by
  unfold Obligations.AcceptEdgeRunsDecodedCommand
  refine ⟨fun s hp hr hc => ?_, fun s cmd => step_accept (placeCommand_presents s cmd)⟩
  rw [decode_packCommand]
  exact step_accept ⟨hp, hr, hc, rfl⟩

/-- Settles O8: the map is the definition of `decodePorts`; the three runs that can start have their opcodes as
codes. -/
theorem opcodeFieldSelectsCommand : Obligations.OpcodeFieldSelectsCommand := by
  unfold Obligations.OpcodeFieldSelectsCommand
  refine ⟨fun _ => rfl, fun i s t hn h => ?_⟩
  obtain ⟨e, he, -⟩ | ⟨-, ⟨len, data, rfl, -, hx⟩ | ⟨len, data, rfl, -, -, hx⟩ | ⟨len, data, rfl, -, -, hx⟩⟩ :=
    exec_cases i s
  · cases hn.symm.trans he
  all_goals
    cases hx.symm.trans h
    rfl

/-- Settles O9, by cutting each word into its fields. -/
theorem sampleWordsDecode : Obligations.SampleWordsDecode := by
  unfold Obligations.SampleWordsDecode
  simp [decode, decodePorts, CmdWord.op, CmdWord.len, CmdWord.data]

end Sys2Proof.Machine
end

section
/-!
SUPPORT. The field arithmetic of spec/40_gf_mult_8bit.md. `xtime` respects XOR; `mulPoly` maps the byte 0x01, a doubled
byte and a XOR on its left as a product should; every byte is a XOR of doublings of 0x01. The laws of rule R83 follow by
induction over that construction.
-/

namespace Sys2Proof.Machine

/-! ## Doubling (rule R81) -/

/-- The 9-bit reduction by 0x11b, in 8 bits. -/
theorem xtime_eq (a : Byte) : xtime a = (a <<< 1) ^^^ (if a.getLsbD 7 then 0x1b#8 else 0x00#8) := by
  have top : (a.setWidth 9 <<< 1).getLsbD 8 = a.getLsbD 7 := by simp
  have low : (a.setWidth 9 <<< 1).setWidth 8 = a <<< 1 := by ext i hi; simp
  simp only [xtime, top]
  cases a.getLsbD 7
  · simp [low]
  · simp [low, BitVec.setWidth_xor]

@[simp] theorem xtime_xor (a b : Byte) : xtime (a ^^^ b) = xtime a ^^^ xtime b := by
  have carry (p q : Bool) : (if p ^^ q then 0x1b#8 else 0x00#8) =
      (if p then 0x1b#8 else 0x00#8) ^^^ (if q then 0x1b#8 else 0x00#8) := by cases p <;> cases q <;> rfl
  simp only [xtime_eq, BitVec.shiftLeft_xor_distrib, BitVec.getLsbD_xor, carry]
  ac_rfl

/-! ## Every byte is a XOR of doublings of 0x01 -/

/-- The bytes are generated by the powers of two under XOR. -/
theorem byte_twoPow_induction {P : Byte → Prop} (twoPow : ∀ k : Fin 8, P (BitVec.twoPow 8 k))
    (xor : ∀ a b, P a → P b → P (a ^^^ b)) (a : Byte) : P a := by
  suffices h : ∀ n ≤ 8, ∀ a : Byte, (∀ i, n ≤ i → a.getLsbD i = false) → P a from
    h 8 le_rfl a fun i hi => BitVec.getLsbD_of_ge a i hi
  intro n
  induction n with
  | zero =>
    intro _ a ha
    obtain rfl : a = 0x00#8 := BitVec.eq_of_getLsbD_eq fun i _ => by simp [ha i]
    exact xor _ _ (twoPow 0) (twoPow 0)
  | succ n ih =>
    intro hn a ha
    have below {b : Byte} (hb : b.getLsbD n = false) (hi : ∀ i, n < i → b.getLsbD i = false) : P b :=
      ih (by omega) b fun i h => h.eq_or_lt.elim (fun h => h ▸ hb) (hi i)
    cases han : a.getLsbD n
    · exact below han ha
    · have low : P (a ^^^ BitVec.twoPow 8 n) :=
        below (by simp [han, show n < 8 by omega]) fun i hi => by simp [ha i hi, hi.ne]
      simpa [BitVec.xor_assoc] using xor _ _ low (twoPow ⟨n, hn⟩)

theorem xtime_iterate_one (k : Fin 8) : xtime^[k] 0x01#8 = BitVec.twoPow 8 k := by
  revert k; decide

/-- The bytes are generated by 0x01 under doubling and XOR. -/
theorem byte_induction {P : Byte → Prop} (one : P 0x01#8) (double : ∀ a, P a → P (xtime a))
    (xor : ∀ a b, P a → P b → P (a ^^^ b)) (a : Byte) : P a :=
  byte_twoPow_induction (fun k => xtime_iterate_one k ▸ Function.Iterate.rec P one double k) xor a

/-! ## The XOR of two accumulations of terms selected by bits -/

/-- The terms `x` and `y`, both selected by the bit `b`. -/
theorem ite_xor_ite_of_bit {w : Nat} (b : Bool) (p q x y : BitVec w) :
    (if b then p ^^^ x else p) ^^^ (if b then q ^^^ y else q) =
      if b then (p ^^^ q) ^^^ (x ^^^ y) else p ^^^ q := by
  cases b
  · rfl
  · simp only [if_true]; ac_rfl

/-- One term `x`, selected by the bits `b` and `c`: it cancels when both are 1. -/
theorem ite_xor_ite_of_term {w : Nat} (b c : Bool) (p q x : BitVec w) :
    (if b then p ^^^ x else p) ^^^ (if c then q ^^^ x else q) =
      if b ^^ c then (p ^^^ q) ^^^ x else p ^^^ q := by
  have cancel : (p ^^^ x) ^^^ (q ^^^ x) = p ^^^ q := by
    rw [BitVec.xor_comm q x, BitVec.xor_assoc, ← BitVec.xor_assoc x x q, BitVec.xor_self, BitVec.zero_xor]
  cases b <;> cases c
  · rfl
  · exact (BitVec.xor_assoc ..).symm
  · simp only [Bool.xor_false, if_true, Bool.false_eq_true, if_false]; ac_rfl
  · exact cancel

/-! ## The product of 0x01, of a doubled byte and of a XOR -/

/-- The XOR of two states of the loop of rule R82. -/
def turnXor (p q : Byte × Byte) : Byte × Byte := (p.1 ^^^ q.1, p.2 ^^^ q.2)

theorem mulPolyTurn_turnXor (b : Byte) (p q : Byte × Byte) (i : Nat) :
    turnXor (mulPolyTurn b p i) (mulPolyTurn b q i) = mulPolyTurn b (turnXor p q) i := by
  simp [mulPolyTurn, turnXor, ite_xor_ite_of_bit]

theorem mulPolyTurn_xtime (b : Byte) (p : Byte × Byte) (i : Nat) :
    mulPolyTurn b (p.map xtime xtime) i = (mulPolyTurn b p i).map xtime xtime := by
  unfold mulPolyTurn
  split <;> simp

/-- The accumulator takes up the bits of `b` one by one; a check of the 256 bytes. -/
@[simp] theorem mulPoly_one_left : ∀ b : Byte, mulPoly 0x01#8 b = b := by decide +kernel

@[simp] theorem mulPoly_xtime_left (a b : Byte) : mulPoly (xtime a) b = xtime (mulPoly a b) :=
  congrArg Prod.fst (List.foldl_hom (Prod.map xtime xtime) (mulPolyTurn_xtime b) (init := (0x00#8, a)))

@[simp] theorem mulPoly_xor_left (a b c : Byte) : mulPoly (a ^^^ b) c = mulPoly a c ^^^ mulPoly b c := by
  have start : (0x00#8, a ^^^ b) = turnXor (0x00#8, a) (0x00#8, b) := by simp [turnXor]
  rw [mulPoly, start, List.foldl_hom₂ _ turnXor _ _ _ _ _ (mulPolyTurn_turnXor c)]
  rfl

/-! ## The laws of the product (rule R83) -/

@[simp] theorem mulPoly_xtime_right (a b : Byte) : mulPoly a (xtime b) = xtime (mulPoly a b) := by
  induction a using byte_induction with
  | one => simp
  | double a ih => simp [ih]
  | xor a c iha ihc => simp [iha, ihc]

@[simp] theorem mulPoly_xor_right (a b c : Byte) : mulPoly a (b ^^^ c) = mulPoly a b ^^^ mulPoly a c := by
  induction a using byte_induction with
  | one => simp
  | double a ih => simp [ih]
  | xor a d iha ihd => simp only [mulPoly_xor_left, iha, ihd]; ac_rfl

@[simp] theorem mulPoly_zero_right (a : Byte) : mulPoly a 0x00#8 = 0x00#8 := by
  simpa using mulPoly_xor_right a 0x00#8 0x00#8

@[simp] theorem mulPoly_one_right (a : Byte) : mulPoly a 0x01#8 = a := by
  induction a using byte_induction with
  | one => simp
  | double a ih => simp [ih]
  | xor a b iha ihb => simp [iha, ihb]

theorem mulPoly_comm (a b : Byte) : mulPoly a b = mulPoly b a := by
  induction a using byte_induction with
  | one => simp
  | double a ih => simp [ih]
  | xor a c iha ihc => simp [iha, ihc]

theorem mulPoly_assoc (a b c : Byte) : mulPoly (mulPoly a b) c = mulPoly a (mulPoly b c) := by
  induction a using byte_induction with
  | one => simp
  | double a ih => simp [ih]
  | xor a d iha ihd => simp [iha, ihd]

/-- Settles O46: each law follows by induction over the doublings of 0x01. -/
theorem mulPolyRequiredLaws : Obligations.MulPolyRequiredLaws :=
  ⟨mulPoly_comm, mulPoly_zero_right, mulPoly_one_right, mulPoly_xor_right⟩

/-! ## Inverses (rule R83) -/

/-- The product of the `n` successive squares `a^2`, `a^4`, `a^8`, …; of seven of them it is `a^254`. -/
def squaresProduct : Nat → Byte → Byte
  | 0, _ => 0x01#8
  | n + 1, a => mulPoly (mulPoly a a) (squaresProduct n (mulPoly a a))

/-- Fermat's inverse: `a · a^254 = 1` for each of the 255 non-zero bytes. -/
theorem mulPoly_squaresProduct_seven : ∀ a : Byte, a ≠ 0x00#8 → mulPoly a (squaresProduct 7 a) = 0x01#8 := by
  decide +kernel

theorem mulPoly_inverse_unique {a b c : Byte} (hb : mulPoly a b = 0x01#8) (hc : mulPoly a c = 0x01#8) : c = b :=
  calc c = mulPoly (mulPoly a b) c := by rw [hb, mulPoly_one_left]
    _ = mulPoly b (mulPoly a c) := by rw [mulPoly_comm a b, mulPoly_assoc]
    _ = b := by rw [hc, mulPoly_one_right]

/-- Settles O47: the inverse of `a` is `a^254`. -/
theorem mulPolyAssociativeWithInverses : Obligations.MulPolyAssociativeWithInverses :=
  ⟨mulPoly_assoc, fun a ha => ⟨squaresProduct 7 a, mulPoly_squaresProduct_seven a ha,
    fun _ => mulPoly_inverse_unique (mulPoly_squaresProduct_seven a ha)⟩⟩

/-- Settles O45: 0x8d is the inverse of 0x02, so multiplying by it undoes the doubling. -/
theorem xtimeDoublesInField : Obligations.XtimeDoublesInField := by
  unfold Obligations.XtimeDoublesInField
  have inverse : xtime 0x8d#8 = 0x01#8 := rfl
  have left (a : Byte) : mulPoly 0x8d#8 (xtime a) = a := by
    rw [mulPoly_xtime_right, ← mulPoly_xtime_left, inverse, mulPoly_one_left]
  have right (b : Byte) : xtime (mulPoly 0x8d#8 b) = b := by
    rw [← mulPoly_xtime_left, inverse, mulPoly_one_left]
  exact ⟨xtime_eq, rfl, rfl, rfl, rfl, inverse, fun _ _ => (Function.LeftInverse.injective left ·),
    fun b => ⟨_, right b⟩⟩

/-! ## The polynomial reading (rule R84) -/

theorem polyProduct_xor_left (a b c : Byte) : polyProduct (a ^^^ b) c = polyProduct a c ^^^ polyProduct b c :=
  List.foldl_hom₂ (List.range 8) (fun p q : BitVec 15 => p ^^^ q) _ _ _ 0#15 0#15 fun p q i => by
    rw [ite_xor_ite_of_bit, BitVec.setWidth_xor, BitVec.shiftLeft_xor_distrib]

theorem polyProduct_xor_right (a b c : Byte) : polyProduct a (b ^^^ c) = polyProduct a b ^^^ polyProduct a c :=
  List.foldl_hom₂ (List.range 8) (fun p q : BitVec 15 => p ^^^ q) _ _ _ 0#15 0#15 fun p q i => by
    rw [ite_xor_ite_of_term, BitVec.getLsbD_xor]

theorem polyRemainder_xor (p q : BitVec 15) : polyRemainder (p ^^^ q) = polyRemainder p ^^^ polyRemainder q := by
  rw [polyRemainder, polyRemainder, polyRemainder, ← BitVec.setWidth_xor]
  refine congrArg (BitVec.setWidth 8)
    (List.foldl_hom₂ (List.range 7) (fun r s : BitVec 15 => r ^^^ s) _ _ _ p q fun r s k => ?_)
  rw [ite_xor_ite_of_term, BitVec.getLsbD_xor]

/-- Both sides are linear in both factors. -/
theorem mulPoly_eq_polyRemainder (a b : Byte) : mulPoly a b = polyRemainder (polyProduct a b) := by
  induction a using byte_twoPow_induction with
  | twoPow i =>
    induction b using byte_twoPow_induction with
    | twoPow j => revert i j; decide +kernel
    | xor b c ihb ihc => rw [mulPoly_xor_right, polyProduct_xor_right, polyRemainder_xor, ihb, ihc]
  | xor a c iha ihc => rw [mulPoly_xor_left, polyProduct_xor_left, polyRemainder_xor, iha, ihc]

/-- Settles O48, by linearity in both factors from the 64 products of powers of two. -/
theorem mulPolyIsProductModuloPolynomial : Obligations.MulPolyIsProductModuloPolynomial := mulPoly_eq_polyRemainder

/-! ## The constant multipliers (rule R85) -/

/-- Settles O49: each constant is a XOR of doublings of 0x01, and the product takes it apart. -/
theorem constantMultipliersByDoubling : Obligations.ConstantMultipliersByDoubling := by
  unfold Obligations.ConstantMultipliersByDoubling
  intro v
  have c02 : (0x02 : Byte) = xtime 0x01 := rfl
  have c03 : (0x03 : Byte) = xtime 0x01 ^^^ 0x01 := rfl
  have c09 : (0x09 : Byte) = xtime (xtime (xtime 0x01)) ^^^ 0x01 := rfl
  have c0b : (0x0b : Byte) = xtime (xtime (xtime 0x01)) ^^^ xtime 0x01 ^^^ 0x01 := rfl
  have c0d : (0x0d : Byte) = xtime (xtime (xtime 0x01)) ^^^ xtime (xtime 0x01) ^^^ 0x01 := rfl
  have c0e : (0x0e : Byte) = xtime (xtime (xtime 0x01)) ^^^ xtime (xtime 0x01) ^^^ xtime 0x01 := rfl
  rw [c02, c03, c09, c0b, c0d, c0e]
  simp

end Sys2Proof.Machine
end

section
/-!
SUPPORT. The constant tables of spec/41_constant_tables.md. Two facts are read off the tables, entry by entry: INVSBOX
undoes SBOX, and SBOX is the affine step of `x^254`. The laws of rules R91 and R94 follow from them.
-/

namespace Sys2Proof.Machine

/-! ## SBOX and INVSBOX (rule R91) -/

/-- A check of the 256 bytes. -/
@[simp] theorem invSbox_sbox : ∀ x : Byte, invSbox (sbox x) = x := by decide +kernel

theorem sbox_surjective : Function.Surjective sbox :=
  have : Finite Byte := Finite.of_injective BitVec.toFin fun _ _ => BitVec.eq_of_toFin_eq
  Finite.surjective_of_injective (Function.LeftInverse.injective invSbox_sbox)

@[simp] theorem sbox_invSbox : ∀ y : Byte, sbox (invSbox y) = y :=
  Function.LeftInverse.rightInverse_of_surjective invSbox_sbox sbox_surjective

/-- Settles O50: INVSBOX undoes SBOX, which therefore permutes the 256 bytes, so that SBOX undoes INVSBOX. -/
theorem inverseSboxUndoesSbox : Obligations.InverseSboxUndoesSbox := ⟨invSbox_sbox, sbox_invSbox⟩

/-! ## The construction of SBOX (rule R94) -/

theorem ne_zero_of_mulPoly_eq_one {a b : Byte} (h : mulPoly a b = 0x01#8) : a ≠ 0x00#8 := by
  rintro rfl
  rw [mulPoly_comm, mulPoly_zero_right] at h
  cases h

/-- The construction with `x^254` for the inverse of `x`, which is 0 at `x = 0`: it gives all 256 entries. -/
theorem sbox_eq_sboxAffine_squaresProduct : ∀ x : Byte, sbox x = sboxAffine (squaresProduct 7 x) := by decide +kernel

/-- Settles O51: the inverse of `x` is unique, hence `x^254`, from which the construction gives the table. -/
theorem sboxIsAffineOfInverse : Obligations.SboxIsAffineOfInverse := by
  unfold Obligations.SboxIsAffineOfInverse
  refine ⟨sbox_eq_sboxAffine_squaresProduct 0x00#8, fun x b hb => ?_⟩
  have inverse : squaresProduct 7 x = b :=
    mulPoly_inverse_unique hb (mulPoly_squaresProduct_seven x (ne_zero_of_mulPoly_eq_one hb))
  rw [sbox_eq_sboxAffine_squaresProduct, inverse]

/-! ## RCON (rule R92) -/

/-- An entry after the first is the doubling of the entry before it. -/
theorem rcon_succ {k : Nat} (hk : 1 ≤ k) : rcon (k + 1) = ⟨xtime (rcon k).a0, 0x00#8, 0x00#8, 0x00#8⟩ := by
  obtain ⟨n, rfl⟩ := Nat.exists_eq_add_of_le' hk
  rfl

/-- Settles O52: the eleven words by evaluation, the doubling for every index from 1. -/
theorem roundConstantsByDoubling : Obligations.RoundConstantsByDoubling :=
  ⟨by decide, rfl, rfl, fun _ hk _ => rcon_succ hk⟩

end Sys2Proof.Machine
end

section
/-!
SUPPORT. The round transformations of spec/42_cipher_round.md: what each puts in a lane of the grid, what undoes it, and
the laws of the round composites. MixColumns and InvMixColumns are matrix products, and undo each other because the
matrix products of rules R104 and R105 are the identity.
-/

namespace Sys2Proof.Machine

/-! ## Byte lanes and the round key (rules R100, R101, R106) -/

@[simp] theorem subBytes_get (s : Grid) (c r : Fin 4) : (subBytes s).get c r = sbox (s.get c r) := by
  simp [subBytes]

@[simp] theorem invSubBytes_get (s : Grid) (c r : Fin 4) : (invSubBytes s).get c r = invSbox (s.get c r) := by
  simp [invSubBytes]

@[simp] theorem addRoundKey_get (s : Grid) (rk : RoundKey) (c r : Fin 4) :
    (addRoundKey s rk).get c r = s.get c r ^^^ (rk c).get r := by
  simp [addRoundKey]

@[simp] theorem invSubBytes_subBytes (s : Grid) : invSubBytes (subBytes s) = s :=
  Grid.ext_get fun _ _ => by simp

@[simp] theorem subBytes_invSubBytes (s : Grid) : subBytes (invSubBytes s) = s :=
  Grid.ext_get fun _ _ => by simp

@[simp] theorem addRoundKey_addRoundKey (s : Grid) (rk : RoundKey) : addRoundKey (addRoundKey s rk) rk = s :=
  Grid.ext_get fun _ _ => by simp

@[simp] theorem addRoundKey_zero (s : Grid) : addRoundKey s (fun _ => Word.zero) = s :=
  Grid.ext_get fun _ _ => by simp

/-- Settles O55, lane by lane: a byte XORed twice with the same byte is itself, and SBOX and INVSBOX undo each other. -/
theorem byteLaneTransformationsUndone : Obligations.ByteLaneTransformationsUndone :=
  ⟨fun s rk c r => ⟨addRoundKey_get s rk c r, subBytes_get s c r, invSubBytes_get s c r⟩, fun _ _ _ => rfl,
    addRoundKey_addRoundKey, addRoundKey_zero, fun s => ⟨invSubBytes_subBytes s, subBytes_invSubBytes s⟩⟩

/-! ## The row shifts (rules R102, R103) -/

@[simp] theorem shiftRows_get (s : Grid) (c r : Fin 4) : (shiftRows s).get c r = s.get (c + r) r := by
  simp [shiftRows]

@[simp] theorem invShiftRows_get (s : Grid) (c r : Fin 4) : (invShiftRows s).get c r = s.get (c - r) r := by
  simp [invShiftRows]

@[simp] theorem invShiftRows_shiftRows (s : Grid) : invShiftRows (shiftRows s) = s :=
  Grid.ext_get fun _ _ => by simp

@[simp] theorem shiftRows_invShiftRows (s : Grid) : shiftRows (invShiftRows s) = s :=
  Grid.ext_get fun _ _ => by simp

/-- Settles O53: the sixteen indices `4·((i div 4 ± i mod 4) mod 4) + i mod 4` are the tables' entries. -/
theorem shiftRowsPermutesBlock : Obligations.ShiftRowsPermutesBlock := by
  unfold Obligations.ShiftRowsPermutesBlock
  refine ⟨fun b i => ?_, fun s => ⟨invShiftRows_shiftRows s, shiftRows_invShiftRows s⟩⟩
  simp only [storeState, shiftRows_get, invShiftRows_get, loadState_get]
  constructor
  · exact congrArg b (by revert i; decide)
  · exact congrArg b (by revert i; decide)

/-! ## The column mixes (rules R104, R105) -/

@[simp] theorem mulPoly_zero_left (a : Byte) : mulPoly 0x00#8 a = 0x00#8 := by
  rw [mulPoly_comm, mulPoly_zero_right]

/-- A matrix with the rows `m`, times a column. -/
def matrixTimes (m : Fin 4 → Word) (col : Word) : Word := Word.ofFn fun r => rowTimes (m r) col

/-- A row times a matrix with the rows `m`. -/
def rowTimesMatrix (row : Word) (m : Fin 4 → Word) : Word :=
  Word.ofFn fun j => rowTimes row (Word.ofFn fun k => (m k).get j)

/-- Row `r` of the identity matrix. -/
def unitRow (r : Fin 4) : Word := Word.ofFn fun j => if j = r then 0x01#8 else 0x00#8

@[simp] theorem mixColumns_col (s : Grid) (c : Fin 4) : (mixColumns s).col c = matrixTimes mixRow (s.col c) := by
  simp [mixColumns, matrixTimes]

@[simp] theorem invMixColumns_col (s : Grid) (c : Fin 4) :
    (invMixColumns s).col c = matrixTimes invMixRow (s.col c) := by
  simp [invMixColumns, matrixTimes]

/-- The product of a row, a matrix and a column is associative. -/
theorem rowTimes_matrixTimes (row col : Word) (m : Fin 4 → Word) :
    rowTimes row (matrixTimes m col) = rowTimes (rowTimesMatrix row m) col := by
  simp only [rowTimesMatrix, matrixTimes, rowTimes, Word.ofFn, Word.get, mulPoly_xor_left, mulPoly_xor_right,
    mulPoly_assoc]
  ac_rfl

theorem rowTimes_unitRow (r : Fin 4) (col : Word) : rowTimes (unitRow r) col = col.get r := by
  fin_cases r <;> simp [unitRow, rowTimes, Word.ofFn, Word.get]

/-- A matrix undoes another when their product is the identity. -/
theorem matrixTimes_matrixTimes {m n : Fin 4 → Word} (h : ∀ r, rowTimesMatrix (n r) m = unitRow r) (col : Word) :
    matrixTimes n (matrixTimes m col) = col :=
  Word.ext_get fun r => by
    rw [matrixTimes, Word.get_ofFn, rowTimes_matrixTimes, h, rowTimes_unitRow]

/-- A column of four equal bytes is unchanged by a matrix whose rows each have the XOR 0x01. -/
theorem matrixTimes_const {m : Fin 4 → Word} (h : ∀ r, (m r).a0 ^^^ (m r).a1 ^^^ (m r).a2 ^^^ (m r).a3 = 0x01#8)
    (v : Byte) : matrixTimes m ⟨v, v, v, v⟩ = ⟨v, v, v, v⟩ := by
  have row (r : Fin 4) : rowTimes (m r) ⟨v, v, v, v⟩ = v := by
    simp only [rowTimes, ← mulPoly_xor_left, h, mulPoly_one_left]
  simp only [matrixTimes, row, Word.ofFn]

@[simp] theorem invMixColumns_mixColumns (s : Grid) : invMixColumns (mixColumns s) = s :=
  Grid.ext_get fun c r => by
    rw [Grid.get, invMixColumns_col, mixColumns_col, matrixTimes_matrixTimes (by decide), Grid.get]

@[simp] theorem mixColumns_invMixColumns (s : Grid) : mixColumns (invMixColumns s) = s :=
  Grid.ext_get fun c r => by
    rw [Grid.get, mixColumns_col, invMixColumns_col, matrixTimes_matrixTimes (by decide), Grid.get]

/-- Settles O54: both products of the two matrices are the identity, and the XOR of each of their rows is 0x01. -/
theorem invMixColumnsUndoesMixColumns : Obligations.InvMixColumnsUndoesMixColumns := by
  unfold Obligations.InvMixColumnsUndoesMixColumns
  refine ⟨fun s c a0 a1 a2 a3 h => ?_, fun s => ⟨invMixColumns_mixColumns s, mixColumns_invMixColumns s⟩,
    fun s c v h => ?_⟩
  · rw [mixColumns_col, invMixColumns_col, h]
    simp [matrixTimes, Word.ofFn, rowTimes, mixRow, invMixRow]
  · rw [mixColumns_col, invMixColumns_col, h]
    exact ⟨matrixTimes_const (by decide) v, matrixTimes_const (by decide) v⟩

/-! ## The composites (rules R107 to R110, R113) -/

theorem invSubBytes_invShiftRows (s : Grid) : invSubBytes (invShiftRows s) = invShiftRows (invSubBytes s) :=
  Grid.ext_get fun _ _ => by simp

theorem subBytes_shiftRows (s : Grid) : subBytes (shiftRows s) = shiftRows (subBytes s) :=
  Grid.ext_get fun _ _ => by simp

/-- Rule R113 (b). -/
theorem finalRound_undone (s : Grid) (rk : RoundKey) :
    invSubBytes (invShiftRows (addRoundKey (finalRound s rk) rk)) = s := by
  rw [finalRound, addRoundKey_addRoundKey, invShiftRows_shiftRows, invSubBytes_subBytes]

/-- Rule R113 (c). -/
theorem cipherRound_undone (s : Grid) (rk : RoundKey) :
    invSubBytes (invShiftRows (invMixColumns (addRoundKey (cipherRound s rk) rk))) = s := by
  rw [cipherRound, addRoundKey_addRoundKey, invMixColumns_mixColumns, invShiftRows_shiftRows, invSubBytes_subBytes]

/-- Settles O56: the composites by definition, and each transformation of a round undone in turn, the last first. -/
theorem roundCompositesAreUndone : Obligations.RoundCompositesAreUndone := fun s rk =>
  ⟨rfl, rfl, rfl, rfl, invSubBytes_invShiftRows s, subBytes_shiftRows s, finalRound_undone s rk,
    cipherRound_undone s rk⟩

/-! ## The module on its buses (rule R111) -/

/-- Byte `r` of word `c` of four words on a 128-bit bus. -/
theorem packWords_lane (w : Fin 4 → Word) (c r : Fin 4) :
    (packWord (w 0) ++ packWord (w 1) ++ packWord (w 2) ++ packWord (w 3)).extractLsb'
        (120 - 8 * (4 * c.val + r.val)) 8 = (w c).get r := by
  rw [← packWord_lane]
  generalize hk : 24 - 8 * r.val = k
  have start : 120 - 8 * (4 * c.val + r.val) = k + (96 - 32 * c.val) := by omega
  have low : k + 8 ≤ 32 := by omega
  rw [start]
  fin_cases c <;>
    simp [-Nat.reduceAdd, BitVec.extractLsb'_append_eq_of_le, BitVec.extractLsb'_append_eq_of_add_le, low]

theorem unpackRoundKey_packWords (rk : RoundKey) :
    unpackRoundKey (packWord (rk 0) ++ packWord (rk 1) ++ packWord (rk 2) ++ packWord (rk 3)) = rk :=
  funext fun c => Word.ext_get fun r => (loadState_get _ c r).trans (packWords_lane rk c r)

theorem aesCipherRound_packed (s : Grid) (rk : RoundKey) (final : Bool) :
    aesCipherRound (packBlock (storeState s))
        (packWord (rk 0) ++ packWord (rk 1) ++ packWord (rk 2) ++ packWord (rk 3)) final =
      packBlock (storeState (if final then finalRound s rk else cipherRound s rk)) := by
  rw [aesCipherRound, unpackBlock_packBlock, loadState_storeState, unpackRoundKey_packWords]

/-- Settles O57: both inputs are read back from their buses as they were packed. -/
theorem cipherRoundModuleOnBuses : Obligations.CipherRoundModuleOnBuses := fun s rk =>
  ⟨aesCipherRound_packed s rk true, aesCipherRound_packed s rk false⟩

end Sys2Proof.Machine
end

section
/-!
SUPPORT. The key expansion of spec/43_key_expand.md: the accept step, a step of the run and the whole run of a `KEXP`,
and the schedule as a list with its recurrence.
-/

namespace Sys2Proof.Machine

/-! ## The schedule as a list (rules R121 to R126) -/

theorem expandKey_length_of_keySize {nk : Nat} (hnk : nk ∈ [4, 6, 8]) {key : List Byte} (hkey : key.length = 4 * nk) :
    (expandKey key).length = 4 * (nk + 7) := by
  obtain ⟨-, -, hnw⟩ := keySize_bounds hnk
  have hquot : key.length / 4 = nk := by omega
  rw [expandKey_length, hquot]
  omega

/-- A round constant is zero outside its first byte (rule R92), so it enters only the first byte of the word. -/
theorem xor_rcon (w : Word) (k : Nat) : Word.xor w (rcon k) = ⟨w.a0 ^^^ (rcon k).a0, w.a1, w.a2, w.a3⟩ := by
  simp [Word.xor, rcon]

/-- Settles O58: a schedule holds the key's words and then those of the loop's turns; `Temp` is spelled out branch by
branch. -/
theorem expandKeyFollowsRecurrence : Obligations.ExpandKeyFollowsRecurrence := by
  unfold Obligations.ExpandKeyFollowsRecurrence
  refine ⟨fun _ => ⟨rfl, rfl⟩, fun _ _ => rfl, fun nk _ i v _ _ => ?_, fun nk hnk key hkey => ?_⟩
  · rw [keyTemp, xor_rcon]
    rfl
  · obtain ⟨h4, -, hnw⟩ := keySize_bounds hnk
    have hquot : key.length / 4 = nk := by omega
    refine ⟨expandKey_length_of_keySize hnk hkey, fun j hj => ?_, fun i h1 h2 => ?_⟩
    · rw [expandKey_getD_of_lt hquot hj, keyWords_getD key hj]
    · exact expandKey_getD_recurrence hquot (by omega) h1 (by omega)

/-! ## The accept step (rules R128, R129) -/

theorem exec_kexp_accept {len : BitVec 6} (h : len.toNat ∈ keyLengths) (data : BitVec 256) (s : State) :
    exec (.kexp len data) s = .next (kexpAccept len data s) := by
  simp [exec, execKexp, keyError_none h]

theorem exec_kexp_error {len : BitVec 6} (h : len.toNat ∉ keyLengths) (data : BitVec 256) (s : State) :
    exec (.kexp len data) s = .next (raiseError s .invalidKeyLength) := by
  simp [exec, execKexp, keyError_some h]

/-- Writing a list of words leaves every cell below and above them as it was. -/
theorem read_memWriteList_outside (m : Memory) {i a : Nat} {ws : List Word}
    (h : a < 4 * i ∨ 4 * (i + ws.length) ≤ a) : Memory.read (memWriteList m i ws) a = Memory.read m a := by
  induction ws generalizing m i with
  | nil => rfl
  | cons v ws ih =>
    rw [List.length_cons] at h
    rw [memWriteList_cons, ih _ (by omega), read_memWrite_outside _ _ _ _ (by omega)]

/-- Settles O19: the accept step writes the words of the key from word 0 on, and the counters. -/
theorem kexpAcceptStoresKey : Obligations.KexpAcceptStoresKey := by
  unfold Obligations.KexpAcceptStoresKey
  intro len data s hl
  obtain ⟨-, hnk, hidx⟩ := kexpAccept_keySize hl data s
  have hwords := keyWords_length (keyBytes data len.toNat) (len.toNat / 4)
  refine ⟨_, exec_kexp_accept hl data s, hnk, rfl, hidx, rfl, rfl, rfl, rfl, fun j hj => ?_, fun a ha => ?_, rfl, rfl,
    rfl⟩
  · rw [kexpAccept_w, memRead_memWriteList_zero _ (by omega), keyWords_getD _ hj, keyBytes_getD _ (by omega),
      keyBytes_getD _ (by omega), keyBytes_getD _ (by omega), keyBytes_getD _ (by omega)]
  · exact read_memWriteList_outside s.w (.inr (by omega))

/-! ## A step of `KEXP_RUN` (rule R129) -/

theorem step_kexpWord {s : State} (hp : s.phase = .kexpRun) (hr : s.pins.rst = false) (hk : s.keySize)
    (h1 : s.nk.toNat ≤ s.kidx.toNat) (h2 : s.kidx.toNat < s.nw) : step s = .next (kexpWord s.advance) := by
  rw [step_kexpRun hp hr]
  obtain ⟨-, -, hx⟩ | ⟨hge, -⟩ | ⟨f, -, hf, -⟩ := kexpStep_cases s.advance
  · exact hx
  · exact absurd h2 (not_lt.mpr hge)
  · cases (kexpIndexFault_none hk h1 h2).symm.trans hf

theorem step_kexpFinish {s : State} (hp : s.phase = .kexpRun) (hr : s.pins.rst = false) (h : s.nw ≤ s.kidx.toNat) :
    step s = .next (kexpFinish s.advance) := by
  rw [step_kexpRun hp hr]
  obtain ⟨hlt, -⟩ | ⟨-, hx⟩ | ⟨f, hlt, -⟩ := kexpStep_cases s.advance
  · exact absurd hlt (not_lt.mpr h)
  · exact hx
  · exact absurd hlt (not_lt.mpr h)

/-- Settles O21: below `NW` the step is `kexpWord`, which writes one word; at `NW` it is `kexpFinish`, which writes the
words from `NW` on. -/
theorem kexpStepFollowsRecurrence : Obligations.KexpStepFollowsRecurrence := by
  unfold Obligations.KexpStepFollowsRecurrence
  intro s hp hr hk h1
  have hd : Config.ksDepth = 60 := rfl
  obtain ⟨-, -, hnw⟩ := nr_of_nk (.inr hk)
  refine ⟨fun h2 => ⟨_, step_kexpWord hp hr hk h1 h2, ?_, fun a ha => read_memWrite_outside s.w _ a _ ha,
    kexpWord_kidx_toNat (s := s.advance) hk h2, rfl⟩, fun h2 => ⟨_, step_kexpFinish hp hr h2.ge, fun j h3 h4 => ?_,
    fun a ha => ?_, rfl⟩⟩
  · simp
  · rw [kexpFinish_w, advance_nw, memRead_memWriteList, List.length_replicate, if_pos (by omega),
      List.getD_replicate _ (by omega)]
  · exact read_memWriteList_outside s.w (by rw [advance_nw, List.length_replicate]; omega)

/-! ## The whole run (rule R128) -/

theorem keyLengths_of_keySize {nk n : Nat} (hnk : nk ∈ [4, 6, 8]) (h : n = 4 * nk) : n ∈ keyLengths := by
  subst h
  revert nk
  decide

/-- While a `KEXP` runs the ports show a busy core without a response and without a schedule (rule R25). -/
theorem keyRunning_ports (len : BitVec 6) (data : BitVec 256) (s : State) (k : Nat) (j : BitVec 6) :
    (ports (keyRunning len data s k) j).busy = true ∧ (ports (keyRunning len data s k) j).cmdReady = false ∧
      (ports (keyRunning len data s k) j).rspValid = false ∧ (ports (keyRunning len data s k) j).ksValid = false ∧
      (ports (keyRunning len data s k) j).ksWordValid = false ∧ (ports (keyRunning len data s k) j).ksWord = 0 :=
  ⟨rfl, rfl, rfl, rfl, readPort_of_not_ksValid (s := keyRunning len data s k) rfl j⟩

/-- The reference sequencer takes one edge for each word above the key's and one for the finish (rule R190). -/
def kexpEdges (nk : Nat) : Nat := nwOf nk - nk + 1

/-- A presented `KEXP` of `4·nk` bytes is accepted, then runs for its edges, and ends in its result. -/
theorem run_presented_kexp {nk : Nat} (hnk : nk ∈ [4, 6, 8]) {s : State} {len : BitVec 6} {data : BitVec 256}
    (hI : s.Inv) (hlen : len.toNat = 4 * nk) (hi : s.presents (.kexp len data)) (hr : s.noReset (kexpEdges nk + 1)) :
    step s = .next (kexpAccept len data s.advance) ∧
      (∀ k, k < kexpEdges nk → run (k + 1) s = .next (keyRunning len data s k)) ∧
      run (kexpEdges nk + 1) s = .next ((kexpResult len data s).afterEdges (kexpEdges nk + 1)) := by
  have hl := keyLengths_of_keySize hnk hlen
  obtain rfl : nk = len.toNat / 4 := by omega
  have ha := (step_accept hi).trans (exec_kexp_accept hl data s.advance)
  exact ⟨ha, fun k hk => run_keyRunning hl ha (noReset_of_le hr (by omega)) (Nat.le_of_lt_succ hk),
    run_kexp hI hi.1 hl ha hr⟩

/-- Settles O24: the run in closed form is `keyRunning` edge by edge and ends in `kexpResult`. -/
theorem kexpEndsInExpandedSchedule : Obligations.KexpEndsInExpandedSchedule := by
  unfold Obligations.KexpEndsInExpandedSchedule
  refine ⟨fun len data s h => exec_kexp_error h data s, fun s _ hr => ⟨_, step_reset hr, rfl⟩, fun nk hnk =>
    ⟨kexpEdges nk, Nat.le_add_left 1 _, fun s len data hI hlen hi hr => ?_⟩⟩
  have hl := keyLengths_of_keySize hnk hlen
  obtain ⟨ha, hrun, hend⟩ := run_presented_kexp hnk hI hlen hi hr
  obtain ⟨-, hsize, -⟩ := kexpAccept_keySize hl data s
  have hread : ∀ i, memRead (kexpResult len data s).w i = (expandKey (keyBytes data (4 * nk))).getD i Word.zero :=
    fun i => hlen ▸ memRead_scheduleMemory _ i
  have hlength := expandKey_length_of_keySize hnk (keyBytes_length data (4 * nk))
  refine ⟨⟨_, exec_kexp_accept hl data s.advance, ha⟩, fun k hk => ⟨_, hrun k hk, keyRunning_ports len data s k⟩,
    _, hend, hsize.trans (by omega), fun i _ => hread i, fun i hi _ => ?_, rfl, rfl, rfl, rfl, rfl, rfl, rfl, rfl⟩
  exact (hread i).trans (List.getD_eq_default _ _ (hlength.trans_le hi))

/-- The result of a `KEXP` keeps nothing of the state but the samples, and reads the key's bytes only. -/
theorem kexpResult_congr {len : BitVec 6} {d e : BitVec 256} (h : keyBytes d len.toNat = keyBytes e len.toNat)
    (s t : State) : kexpResult len e t = { kexpResult len d s with inputs := t.inputs } := by
  simp [kexpResult, respond, h]

/-- Settles O27: both runs end in results of the same key. -/
theorem kexpForgetsOldState : Obligations.KexpForgetsOldState := by
  unfold Obligations.KexpForgetsOldState
  refine fun nk hnk => ⟨kexpEdges nk, Nat.le_add_left 1 _, fun s t len d e hs ht hlen hkey his hit hrs hrt => ?_⟩
  obtain ⟨-, -, hends⟩ := run_presented_kexp hnk hs hlen his hrs
  obtain ⟨-, -, hendt⟩ := run_presented_kexp hnk ht hlen hit hrt
  have hbytes : keyBytes d len.toNat = keyBytes e len.toNat := keyBytes_congr (by rwa [hlen])
  refine ⟨_, _, hends, hendt, ?_⟩
  rw [State.afterEdges, kexpResult_congr hbytes s t]
  rfl

end Sys2Proof.Machine
end

section
/-!
SUPPORT. The block commands of spec/44_encrypt_core.md and spec/45_decrypt_core.md: the round trip of the two ciphers on
blocks and on the buses, the accept step of `ENC` and `DEC`, what the ports show while they run, and a step and the whole
run of an `ENC`.
-/

namespace Sys2Proof.Machine

/-! ## The round trip on blocks (rules R113, R151) -/

/-- A loop of `n` rounds is undone, through the view `view` of the grid, by a loop that takes the round keys in the
opposite order: each of its rounds must undo one round through `view`. -/
theorem roundsFrom_undone {fwd back : Grid → Nat → Grid} {view : Grid → Grid} {n : Nat}
    (h : ∀ g i j, i + j + 1 = n → back (view (fwd g (i + 1))) (j + 1) = view g) (start : Grid) :
    roundsFrom back (view (roundsFrom fwd start n)) n = view start := by
  suffices hpart : ∀ j i, i + j = n →
      roundsFrom back (view (roundsFrom fwd start n)) j = view (roundsFrom fwd start i) from
    hpart n 0 (Nat.zero_add n)
  intro j
  induction j with
  | zero => rintro i rfl; rfl
  | succ j ih =>
    intro i hij
    rw [roundsFrom_succ, ih (i + 1) (by omega), roundsFrom_succ, h _ i j hij]

/-! Between the two loops stands the part of a round that the other cipher has not undone yet: `view` is SubBytes and
ShiftRows for `Decrypt` after `Encrypt`, and their inverses for `Encrypt` after `Decrypt`. -/

theorem invRound_cipherRound (s : Grid) (rk : RoundKey) :
    invRound (shiftRows (subBytes (cipherRound s rk))) rk = shiftRows (subBytes s) := by
  simp [invRound, cipherRound]

theorem cipherRound_invRound (s : Grid) (rk : RoundKey) :
    cipherRound (invSubBytes (invShiftRows (invRound s rk))) rk = invSubBytes (invShiftRows s) := by
  simp [invRound, cipherRound]

/-- `Encrypt` with its loop named (rule R141). -/
theorem encrypt_eq (b : Block) (schedule : List Word) (nr : Nat) :
    encrypt b schedule nr =
      storeState (finalRound
        (roundsFrom (fun g r => cipherRound g (scheduleKey schedule r))
          (addRoundKey (loadState b) (scheduleKey schedule 0)) (nr - 1))
        (scheduleKey schedule nr)) := rfl

/-- `Decrypt` with its loop named (rule R150). -/
theorem decrypt_eq (b : Block) (schedule : List Word) (nr : Nat) :
    decrypt b schedule nr =
      storeState (invFinalRound
        (roundsFrom (fun g r => invRound g (scheduleKey schedule (nr - r)))
          (addRoundKey (loadState b) (scheduleKey schedule nr)) (nr - 1))
        (scheduleKey schedule 0)) := rfl

theorem decrypt_encrypt (schedule : List Word) (nr : Nat) (b : Block) :
    decrypt (encrypt b schedule nr) schedule nr = b := by
  have hloop := roundsFrom_undone (n := nr - 1) (view := fun g => shiftRows (subBytes g))
    (fwd := fun g r => cipherRound g (scheduleKey schedule r))
    (back := fun g r => invRound g (scheduleKey schedule (nr - r)))
    (fun g i j hij => by
      rw [show nr - (j + 1) = i + 1 by omega]
      exact invRound_cipherRound g _)
    (addRoundKey (loadState b) (scheduleKey schedule 0))
  rw [decrypt_eq, encrypt_eq, loadState_storeState, finalRound, addRoundKey_addRoundKey, hloop, invFinalRound,
    invShiftRows_shiftRows, invSubBytes_subBytes, addRoundKey_addRoundKey, storeState_loadState]

theorem encrypt_decrypt (schedule : List Word) (nr : Nat) (b : Block) :
    encrypt (decrypt b schedule nr) schedule nr = b := by
  have hloop := roundsFrom_undone (n := nr - 1) (view := fun g => invSubBytes (invShiftRows g))
    (fwd := fun g r => invRound g (scheduleKey schedule (nr - r)))
    (back := fun g r => cipherRound g (scheduleKey schedule r))
    (fun g i j hij => by
      rw [show nr - (i + 1) = j + 1 by omega]
      exact cipherRound_invRound g _)
    (addRoundKey (loadState b) (scheduleKey schedule nr))
  rw [encrypt_eq, decrypt_eq, loadState_storeState, invFinalRound, addRoundKey_addRoundKey, hloop, finalRound,
    subBytes_invSubBytes, shiftRows_invShiftRows, addRoundKey_addRoundKey, storeState_loadState]

/-! ## The round trip on the buses (rules R40, R41, R142, R152) -/

/-- The block of a command is the upper half of the data bus. -/
theorem dataBlock_append (v lanes : BitVec 128) : dataBlock (v ++ lanes) = unpackBlock v := by
  funext i
  have hstart : 248 - 8 * i.val = 120 - 8 * i.val + 128 := by omega
  simp only [dataBlock, dataByte, unpackBlock, hstart]
  rw [BitVec.extractLsb'_append_eq_of_le (by omega), Nat.add_sub_cancel]

/-- Neighbouring byte lanes of the data bus join to one piece of it. -/
theorem packBlock_dataBlock (data : BitVec 256) : packBlock (dataBlock data) = data.extractLsb' 128 128 := by
  simp only [packBlock, dataBlock, dataByte]
  repeat rw [BitVec.extractLsb'_append_extractLsb'_eq_extractLsb' (by decide)]
  rfl

/-- A block answered by one command is the block of the next command that presents the answer. -/
theorem dataBlock_packBlock_append (b : Block) (lanes : BitVec 128) : dataBlock (packBlock b ++ lanes) = b := by
  rw [dataBlock_append, unpackBlock_packBlock]

theorem encResult_rspData (data : BitVec 256) (s : State) :
    (encResult data s).rspData = packBlock (encrypt (dataBlock data) (scheduleWords s.w s.nw) s.nr) := rfl

theorem decResult_rspData (data : BitVec 256) (s : State) :
    (decResult data s).rspData = packBlock (decrypt (dataBlock data) (scheduleWords s.w s.nw) s.nr) := rfl

/-- A block command keeps the schedule and `NR` (rules R142, R152). -/
@[simp] theorem blockResult_w (out : Block) (s : State) : (blockResult out s).w = s.w := rfl
@[simp] theorem blockResult_nw (out : Block) (s : State) : (blockResult out s).nw = s.nw := rfl
@[simp] theorem blockResult_nr (out : Block) (s : State) : (blockResult out s).nr = s.nr := rfl

/-- Settles O60: the second command reads the first one's output block, and the ciphers undo each other under one
schedule. -/
theorem decOfEncReturnsBlock : Obligations.DecOfEncReturnsBlock := by
  unfold Obligations.DecOfEncReturnsBlock
  intro s data lanes
  constructor
  · rw [decResult_rspData, encResult_rspData, dataBlock_packBlock_append, encResult, blockResult_w, blockResult_nw,
      blockResult_nr, decrypt_encrypt, packBlock_dataBlock]
  · rw [encResult_rspData, decResult_rspData, dataBlock_packBlock_append, decResult, blockResult_w, blockResult_nw,
      blockResult_nr, encrypt_decrypt, packBlock_dataBlock]

/-! ## The accept step of `ENC` and `DEC` (rules R63, R143, R153) -/

theorem exec_block_accept {i : Instr} {ph : Phase} {data : BitVec 256} (hb : StartsBlock i ph data) {s : State}
    (hl : i.lenField.toNat = 16) (hv : s.ksValid = true) : exec i s = .next (blockAccept ph data s) := by
  have he : blockError i.lenField s.ksValid = none := hv ▸ blockError_none hl
  cases hb with
  | enc len data => rw [exec, execEnc, show blockError len s.ksValid = none from he, encAccept]
  | dec len data => rw [exec, execDec, show blockError len s.ksValid = none from he, decAccept]

theorem exec_block_error {i : Instr} {ph : Phase} {data : BitVec 256} (hb : StartsBlock i ph data) {s : State} {e : Err}
    (he : blockError i.lenField s.ksValid = some e) : exec i s = .next (raiseError s e) := by
  cases hb with
  | enc len data => rw [exec, execEnc, show blockError len s.ksValid = some e from he]
  | dec len data => rw [exec, execDec, show blockError len s.ksValid = some e from he]

theorem exec_block_wrongLength {i : Instr} {ph : Phase} {data : BitVec 256} (hb : StartsBlock i ph data)
    (hl : i.lenField.toNat ≠ 16) (s : State) : exec i s = .next (raiseError s .invalidBlockLength) :=
  exec_block_error hb (blockError_length hl s.ksValid)

theorem exec_block_noSchedule {i : Instr} {ph : Phase} {data : BitVec 256} (hb : StartsBlock i ph data) {s : State}
    (hl : i.lenField.toNat = 16) (hv : s.ksValid = false) : exec i s = .next (raiseError s .noKeySchedule) :=
  exec_block_error hb (hv ▸ blockError_schedule hl)

/-- Settles O20: both commands pass their checks and load the block. -/
theorem blockAcceptLoadsState : Obligations.BlockAcceptLoadsState := by
  unfold Obligations.BlockAcceptLoadsState
  intro len data s hl hv
  exact ⟨loadState (dataBlock data), loadState_get (dataBlock data), exec_block_accept (.enc len data) hl hv,
    exec_block_accept (.dec len data) hl hv⟩

/-! ## A block command in progress (rule R25) -/

theorem blockRunning_ports {ph : Phase} (hph : ph ≠ .idle) (s : State) (k : Nat) (g : Grid) (j : BitVec 6) :
    ports (blockRunning ph s k g) j =
      { ports s j with busy := true, cmdReady := false, rspValid := false, rspErr := 0, rspData := 0 } := by
  cases ph with
  | idle => exact absurd rfl hph
  | kexpRun | encRun | decRun => rfl

/-- Up to the edge before its last, a block command is in its running state with some grid in `S`. -/
theorem BlockRun.run_running {ph : Phase} {s : State} {first : Grid → Grid} {round : Grid → Nat → Grid}
    {last : Grid → Grid} (h : BlockRun ph s first round last) {load : Grid}
    (haccept : step s = .next (blockRunning ph s 0 load)) {k : Nat} (hk : k ≤ s.nr) :
    ∃ g, run (k + 1) s = .next (blockRunning ph s k g) := by
  cases k with
  | zero => exact ⟨load, run_succ_left 0 haccept⟩
  | succ k => exact ⟨_, h.run_round haccept hk⟩

/-- While a presented block command runs, the ports show a busy core without a response and the schedule as it was. -/
theorem BlockRun.ports_running {ph : Phase} {s : State} {first : Grid → Grid} {round : Grid → Nat → Grid}
    {last : Grid → Grid} (h : BlockRun ph s first round last) (hph : ph ≠ .idle) {data : BitVec 256}
    (haccept : step s = .next (blockAccept ph data s.advance)) {k : Nat} (hk : k ≤ s.nr) :
    ∃ t, run (k + 1) s = .next t ∧
      ∀ j, ports t j =
        { ports s j with busy := true, cmdReady := false, rspValid := false, rspErr := 0, rspData := 0 } := by
  rw [blockAccept_advance] at haccept
  obtain ⟨g, hg⟩ := h.run_running haccept hk
  exact ⟨_, hg, blockRunning_ports hph s k g⟩

/-! ## The steps and the run of an `ENC` (rules R142, R143) -/

/-- Settles O22: the three branches of `EncStep`, none of which stops for a legal key size. -/
theorem encStepRunsOneRound : Obligations.EncStepRunsOneRound := by
  unfold Obligations.EncStepRunsOneRound
  intro s hp hr hk
  rw [step_encRun hp hr]
  split_ifs with h0 h1
  · exact encStep_first h0
  · exact encStep_round (s := s.advance) hk (Nat.pos_of_ne_zero h0) h1
  · exact encStep_last (s := s.advance) hk (not_lt.mp h1)

/-- Settles O25: the run in closed form is `blockRunning` edge by edge and ends in `encResult` after `NR + 1` edges. -/
theorem encEndsInEncryptedBlock : Obligations.EncEndsInEncryptedBlock := by
  unfold Obligations.EncEndsInEncryptedBlock
  refine ⟨fun len data s => ⟨fun hl => exec_block_wrongLength (.enc len data) hl s,
      exec_block_noSchedule (.enc len data)⟩, fun s _ hr => ⟨_, step_reset hr, rfl⟩, encrypt_decrypt,
    fun nr _ => ⟨nr + 1, Nat.le_add_left 1 nr, fun s len data hk hnr hv hl hi hr => ?_⟩⟩
  subst hnr
  have hx := exec_block_accept (s := s.advance) (.enc len data) hl hv
  have haccept := (step_accept hi).trans hx
  refine ⟨⟨_, hx, haccept⟩, fun k hlt => ?_, _, run_enc hk hr haccept, rfl⟩
  exact (encRun_steps hk hr).ports_running nofun haccept (Nat.le_of_lt_succ hlt)

end Sys2Proof.Machine
end

section
/-!
SUPPORT. The command `DEC` of spec/45_decrypt_core.md: the round trip of the two ciphers under every schedule, a step of
`DEC_RUN`, and the whole run of a `DEC`.
-/

namespace Sys2Proof.Machine

/-! ## The round trip (rule R151) -/

/-- Settles O59: each cipher's loop is undone by the other's, which takes the round keys in the opposite order. -/
theorem decryptUndoesEncrypt : Obligations.DecryptUndoesEncrypt := fun schedule nr b =>
  ⟨decrypt_encrypt schedule nr b, encrypt_decrypt schedule nr b⟩

/-! ## The steps and the run of a `DEC` (rules R152, R153) -/

/-- Settles O23: the three branches of `DecStep`, none of which stops for a legal key size. -/
theorem decStepRunsOneInverseRound : Obligations.DecStepRunsOneInverseRound := by
  unfold Obligations.DecStepRunsOneInverseRound
  intro s hp hr hk
  rw [step_decRun hp hr]
  split_ifs with h0 h1
  · exact decStep_first (s := s.advance) hk h0
  · exact decStep_round (s := s.advance) hk (Nat.pos_of_ne_zero h0) h1
  · exact decStep_last (s := s.advance) hk (not_lt.mp h1)

/-- Settles O26: the run of a `DEC` is `blockRunning` edge by edge and ends in `decResult` after `NR + 1` edges. -/
theorem decEndsInDecryptedBlock : Obligations.DecEndsInDecryptedBlock := by
  unfold Obligations.DecEndsInDecryptedBlock
  refine ⟨fun len data s => ⟨fun hlen => exec_block_wrongLength (.dec len data) hlen s,
      exec_block_noSchedule (.dec len data)⟩,
    fun s _ hrst => ⟨_, step_reset hrst, rfl⟩, decrypt_encrypt, fun nr _ => ⟨nr + 1, Nat.le_add_left 1 nr, ?_⟩⟩
  rintro s len data hk rfl hv hlen hi hr
  have hexec : exec (.dec len data) s.advance = .next (decAccept data s.advance) :=
    exec_block_accept (.dec len data) hlen hv
  have haccept : step s = .next (decAccept data s.advance) := (step_accept hi).trans hexec
  refine ⟨⟨_, hexec, haccept⟩, fun k hlt => ?_, _, run_dec hk hr haccept, rfl⟩
  exact (decRun_steps hk hr).ports_running nofun haccept (Nat.le_of_lt_succ hlt)

end Sys2Proof.Machine
end

section
/-!
SUPPORT. The errors of spec/60_exceptions.md: the response an accept step writes from the outcome of its checks, which
checks give which code, and the ports after an error.
-/

namespace Sys2Proof.Machine

/-! ## The error codes (rule R160) -/

theorem errCode_injective {e f : Err} (h : e.code = f.code) : e = f := by
  revert h
  cases e <;> cases f <;> decide

theorem errCode_ne_zero (e : Err) : e.code ≠ 0 := by cases e <;> decide

/-! ## The response of an accept step (rules R63, R165, R166) -/

/-- `RSP_VALID` and `RSP_ERR` after an accept step, from the outcome of its checks (rules R18, R166). -/
def errorReport : Option Err → Bool × BitVec 3
  | some e => (true, e.code)
  | none => (false, 0)

theorem errorReport_keyError (len : BitVec 6) :
    errorReport (keyError len) = if len.toNat ∉ keyLengths then (true, 1) else (false, 0) := by
  obtain ⟨h, he⟩ | ⟨h, he⟩ := keyError_cases len <;> simp [h, he, errorReport, Err.code]

theorem errorReport_blockError (len : BitVec 6) (v : Bool) :
    errorReport (blockError len v) =
      if len.toNat ≠ 16 then (true, 2) else if v then (false, 0) else (true, 4) := by
  obtain ⟨h, rfl, he⟩ | ⟨h, rfl, he⟩ | ⟨h, he⟩ := blockError_cases len v <;> simp [h, he, errorReport, Err.code]

/-- Every command answers a next state, whose response is the report of its checks without data. -/
theorem exec_report (i : Instr) (s : State) :
    ∃ t, exec i s = .next t ∧ t.rspData = 0 ∧ (t.rspValid, t.rspErr) = errorReport (acceptError i s) := by
  obtain ⟨e, he, hx⟩ | ⟨he, ⟨len, data, -, -, hx⟩ | ⟨len, data, -, -, -, hx⟩ | ⟨len, data, -, -, -, hx⟩⟩ :=
    exec_cases i s
  all_goals exact ⟨_, hx, rfl, by rw [he]; rfl⟩

/-- A command whose checks fail raises their error. -/
theorem exec_of_acceptError {i : Instr} {s : State} {e : Err} (he : acceptError i s = some e) :
    exec i s = .next (raiseError s e) := by
  obtain ⟨f, hf, hx⟩ | ⟨hn, -⟩ := exec_cases i s
  · cases hf.symm.trans he
    exact hx
  · cases hn.symm.trans he

/-- An error code in the response of an accept step comes from the check of that error. -/
theorem acceptError_of_rspErr {i : Instr} {s t : State} {e : Err} (h : exec i s = .next t) (hc : t.rspErr = e.code) :
    acceptError i s = some e := by
  obtain ⟨t', ht, -, hr⟩ := exec_report i s
  cases ht.symm.trans h
  have hcode : (errorReport (acceptError i s)).2 = e.code := (congrArg Prod.snd hr).symm.trans hc
  cases hf : acceptError i s with
  | none =>
    rw [hf] at hcode
    exact absurd hcode.symm (errCode_ne_zero e)
  | some f =>
    rw [hf] at hcode
    rw [errCode_injective hcode]

/-! ## Which check raises which error (rules R161, R162) -/

theorem blockError_ne_invalidKeyLength (len : BitVec 6) (v : Bool) : blockError len v ≠ some .invalidKeyLength := by
  obtain ⟨-, -, he⟩ | ⟨-, -, he⟩ | ⟨-, he⟩ := blockError_cases len v <;> simp [he]

theorem keyError_ne_invalidBlockLength (len : BitVec 6) : keyError len ≠ some .invalidBlockLength := by
  obtain ⟨-, he⟩ | ⟨-, he⟩ := keyError_cases len <;> simp [he]

/-- Only a `KEXP` of a wrong length fails with `InvalidKeyLength` (rule R161). -/
theorem kexp_of_invalidKeyLength {i : Instr} {s : State} (h : acceptError i s = some .invalidKeyLength) :
    ∃ len data, i = .kexp len data ∧ len.toNat ∉ keyLengths := by
  cases i with
  | rsvd len data => cases h
  | kexp len data => exact ⟨len, data, rfl, fun hl => by cases (keyError_none hl).symm.trans h⟩
  | enc len data | dec len data => exact absurd h (blockError_ne_invalidKeyLength len s.ksValid)

/-- With `cmd_op = 00` the command on the ports is `RSVD` (rule R62). -/
theorem command_of_op_zero {p : Pins} (h : p.cmdOp = 0b00#2) : p.command = .rsvd p.cmdLen p.cmdData := if_pos h

/-! ## The ports after an error (rules R24, R166) -/

/-- An idle core that has raised an error shows it, stays ready, and shows the schedule as it was. -/
theorem raiseError_ports {s : State} (hp : s.phase = .idle) (e : Err) (j : BitVec 6) :
    ports (raiseError s e) j =
      { ports s j with cmdReady := true, busy := false, rspValid := true, rspErr := e.code, rspData := 0 } := by
  obtain ⟨nk, v, w, rv, re, rd, phase, rnd, kidx, g, inputs⟩ := s
  subst hp
  rfl

/-! ## The statements about errors -/

/-- Settles O17: the response is the report of the checks, whose order is that of `acceptError`; a reset edge accepts
nothing. -/
theorem acceptReportsFirstError : Obligations.AcceptReportsFirstError := by
  unfold Obligations.AcceptReportsFirstError
  refine ⟨fun i s => ?_, fun s p hr => if_pos hr⟩
  obtain ⟨t, hx, hd, hreport⟩ := exec_report i s
  refine ⟨t, hx, hd, hreport.trans ?_⟩
  cases i with
  | rsvd len data => rfl
  | kexp len data => exact errorReport_keyError len
  | enc len data | dec len data => exact errorReport_blockError len s.ksValid

/-- Settles O13: `RSVD` has no check but its opcode. -/
theorem rsvdRaisesIllegalCommand : Obligations.RsvdRaisesIllegalCommand := by
  unfold Obligations.RsvdRaisesIllegalCommand
  have hrsvd : ∀ len data s, exec (.rsvd len data) s = .next (raiseError s .illegalCommand) := fun _ _ _ =>
    exec_of_acceptError rfl
  exact ⟨hrsvd, fun p s hop => command_of_op_zero hop ▸ hrsvd p.cmdLen p.cmdData s⟩

/-- Settles O14: the length check of `KEXP` raises code 1, and no other check does. -/
theorem wrongKeyLengthRaisesError : Obligations.WrongKeyLengthRaisesError := by
  unfold Obligations.WrongKeyLengthRaisesError
  exact ⟨fun len data s hl => exec_kexp_error hl data s, fun i s t h hc =>
    kexp_of_invalidKeyLength (acceptError_of_rspErr h hc)⟩

/-- Settles O15: the length check of `ENC` and `DEC` raises code 2, and that of `KEXP` does not. -/
theorem wrongBlockLengthRaisesError : Obligations.WrongBlockLengthRaisesError := by
  unfold Obligations.WrongBlockLengthRaisesError
  refine ⟨fun len data s hl => ⟨?_, ?_⟩, fun len data s t h hc => ?_⟩
  · exact exec_block_wrongLength (.enc len data) hl s
  · exact exec_block_wrongLength (.dec len data) hl s
  · exact keyError_ne_invalidBlockLength len (acceptError_of_rspErr h hc)

/-- Settles O16: with the length right, the second check of `ENC` and `DEC` fails. -/
theorem blockWithoutScheduleRaisesError : Obligations.BlockWithoutScheduleRaisesError := by
  unfold Obligations.BlockWithoutScheduleRaisesError
  intro len data s hl hv
  exact ⟨exec_block_noSchedule (.enc len data) hl hv, exec_block_noSchedule (.dec len data) hl hv⟩

/-- Settles O18: the accept edge raises the error in the state whose first sample is used up. -/
theorem errorReplacesOnlyResponse : Obligations.ErrorReplacesOnlyResponse := by
  unfold Obligations.ErrorReplacesOnlyResponse
  intro i s e hi he
  have hstep : step s = .next (raiseError s e).advance := step_accept_next hi (exec_of_acceptError he)
  obtain ⟨hidle, -⟩ := hi
  exact ⟨_, hstep, rfl, raiseError_ports hidle e⟩

end Sys2Proof.Machine
end

section
/-!
SUPPORT. Reset, idle edges and timing, of spec/70_reset_and_hazards.md: what the ports show after a reset edge, an idle
edge without a command, and the edges a command takes under the reference latencies and when it fails.
-/

namespace Sys2Proof.Machine

/-! ## Reset and idle edges (rules R180, R189) -/

/-- The ports after a reset: ready, no response, and a read port without a schedule to read (rules R24, R180). -/
theorem resetStep_ports (s : State) (j : BitVec 6) :
    ports (resetStep s) j =
      { cmdReady := true, busy := false, rspValid := false, rspErr := 0, rspData := 0, ksValid := false,
        ksNk := 0, ksNr := 0, ksWordValid := false, ksWord := 0 } := by
  obtain ⟨hvalid, hword⟩ := readPort_of_not_ksValid (resetStep_ksValid s) j
  rw [ports, hvalid, hword]
  rfl

/-- Settles O2: the edge is a reset step, which keeps nothing but the samples to come. -/
theorem resetEdgeClearsEverything : Obligations.ResetEdgeClearsEverything := by
  unfold Obligations.ResetEdgeClearsEverything
  intro s hr
  exact ⟨resetStep s.advance, step_reset hr, rfl, resetStep_ports s.advance⟩

/-- Settles O6: such an edge only advances the samples. -/
theorem idleEdgeWithoutCommandKeepsState : Obligations.IdleEdgeWithoutCommandKeepsState := by
  unfold Obligations.IdleEdgeWithoutCommandKeepsState
  intro s hp hr hc
  exact step_idle hp hr hc

/-! ## The edges a command takes (rules R5, R190) -/

/-- Each reference latency counts one edge beyond the words or rounds still to do, so it is at least 1. -/
theorem reference_admissible : Config.Latency.reference.admissible :=
  ⟨fun _ _ => Nat.le_add_left 1 _, fun _ _ => ⟨Nat.le_add_left 1 _, Nat.le_add_left 1 _⟩⟩

/-- A command whose checks fail takes no edge after its accept edge, whatever the latencies are (rule R190). -/
theorem commandLatency_of_acceptError {i : Instr} {s : State} {e : Err} (he : acceptError i s = some e)
    (l : Config.Latency) : commandLatency l i s = 0 := by
  simp [commandLatency, he]

/-- Settles O31: the table is the reference latencies at the three key sizes, and a failing command raises its error
at the accept edge. -/
theorem referenceTimingTable : Obligations.ReferenceTimingTable := by
  unfold Obligations.ReferenceTimingTable
  refine ⟨reference_admissible, rfl, rfl, rfl, fun l i s e he => ?_⟩
  exact ⟨commandLatency_of_acceptError he l, raiseError s e, exec_of_acceptError he, raiseError_rspValid s e⟩

end Sys2Proof.Machine
end
